-- ==== Sys2Proof/Word.lean ====
section
/-! DEFINITION. The word types of the deserializer (spec/00_scope.md R7 `BYTE_W`, R9; spec/10_state.md R19, R20, R23). -/

namespace Sys2Proof

/-- One wire byte or byte register, `BYTE_W` wide (the one place where that 8 stands): unsigned, bit 0 least
significant (R7, R9). -/
abbrev Byte := BitVec 8

/-- The width of a word, from its type. -/
abbrev widthOf {w : Nat} (_ : BitVec w) : Nat := w

/-- The 5-bit counters `LEN` and `CNT` (R19, R20). -/
abbrev Count := BitVec 5

/-- The 3-bit command code `OP` / `cmd_op` (R23, R31). -/
abbrev OpCode := BitVec 3

end Sys2Proof
end

