-- ==== Sys2Proof/Config.lean ====
section
/-! DEFINITION. The open parameters of spec/00_scope.md R8 that this model draws a value from. None has a body,
so no proof can use a particular value. (`DRIVER_LATENCY` is the pin plan in State; `ERROR_TEXT` belongs to the
display driver, which R5 leaves out.) -/

namespace Sys2Proof

/-- `RX_FIFO_DEPTH`: how many bytes the byte source holds beyond the one it offers (R115, D12). Free value, log 10. -/
opaque Config.rxFifoDepth : Nat

/-- Whether the `n`-th byte that arrives at a full byte source is kept (true) or lost (false)
(93_implementation_defined.md I10). Free value, log 10. -/
opaque Config.overrunKept : Nat → Bool

/-- `PRE_RESET_BYTES`: whether the `n`-th byte sent before reset has finished is offered after it (true) or lost
(false) (R110, D16). Free value, log 12. -/
opaque Config.preResetByteOffered : Nat → Bool

/-- `HEX_TOKEN_EDGE`: what the host makes of a hex token that is neither 1-2 hex digits nor free of hex digits:
a byte, or none for a refusal (R67, D17, I14). Free value, log 13. -/
opaque Config.hexTokenEdge : List Char → Option Byte

/-- `ST_ENCODING`: the code of the state register's `n`-th value, as a number (R8, R14, D7). Every way to give the
nine values nine different codes is a permutation of the numbers cut to 0..8. Free value, log 20. -/
opaque Config.stEncoding : Equiv.Perm Nat

end Sys2Proof
end

