-- ==== Sys2Proof/Machine/Constants.lean ====
section
/-! DEFINITION. The fixed constants of spec/00_scope.md R7, each defined once, by name, because
spec/93_implementation_defined.md I9 and spec/92_eei_decisions.md D23 call them unaudited. Those that no rule of
the block reads (the line rate, the host's pause, the display's size) stand here for the record. -/

namespace Sys2Proof

/-- `BYTE_W`: width of every wire field (R7), read off the byte type, where alone the number stands. -/
abbrev byteWidth : Nat := widthOf (0 : Byte)

/-- Idle / no-data marker (R7, R53). -/
abbrev tagIdle : Byte := 0x00#_
/-- Clear (R7, R53). -/
abbrev tagClear : Byte := 0x01#_
/-- SetCursor (R7, R53). -/
abbrev tagSetCursor : Byte := 0x02#_
/-- Print (R7, R53). -/
abbrev tagPrint : Byte := 0x03#_
/-- PrintGlyph (R7, R53). -/
abbrev tagPrintGlyph : Byte := 0x04#_
/-- CreateGlyph (R7, R53). -/
abbrev tagCreateGlyph : Byte := 0x05#_

/-- `MAX_TEXT`: largest Print payload; the device clamps larger declared lengths to it (R7). -/
abbrev maxText : Nat := 16
/-- `BITMAP_LEN`: bitmap bytes in CreateGlyph (R7). -/
abbrev bitmapLen : Nat := 8
/-- `HOST_GLYPH_MAX`: the host's clamp of the CreateGlyph index; the device does not clamp (R7). -/
abbrev hostGlyphMax : Nat := 7

/-- `BAUD`: the byte source's line rate (R7); timing only. -/
abbrev baud : Nat := 9600
/-- `FRAME`: data bits, stop bits, parity bits of the byte source's characters (R7). -/
abbrev serialFrame : Nat × Nat × Nat := (8, 1, 0)
/-- `HOST_DELAY` in milliseconds: the host's pause after each send (R7, R68); timing only. -/
abbrev hostDelayMs : Nat := 50
/-- `DISPLAY_ROWS` (R7): only the driver enforces it. -/
abbrev displayRows : Nat := 2
/-- `DISPLAY_COLS` (R7): only the driver enforces it. -/
abbrev displayCols : Nat := 16
/-- `GLYPH_SLOTS` (R7): only the driver enforces it. -/
abbrev glyphSlots : Nat := 8

/-- The longest packet is a full Print: tag, length byte and `MAX_TEXT` text bytes (R55). -/
abbrev longestPacket : Nat := 2 + maxText

end Sys2Proof
end

