-- ==== Sys2Proof/Syntax.lean ====
section
/-! DEFINITION. The instructions of the deserializer: its packets, one constructor per mnemonic of
spec/opcode_table.json (the six UNKNOWN rows are one packet class, R53, R91). -/

namespace Sys2Proof

/-- A packet, with its operands as received (R53-R56). -/
inductive Instr where
  /-- IDLE, tag 0x00 (R85). -/
  | idle
  /-- CLEAR, tag 0x01 (R86). -/
  | clear
  /-- SET_CURSOR, tag 0x02: `row`, `col` (R87). -/
  | setCursor (row col : Byte)
  /-- PRINT, tag 0x03: the declared length byte `L` and the `min(L, 16)` text bytes (R88). -/
  | print (declared : Byte) (text : List Byte)
  /-- PRINT_GLYPH, tag 0x04: `index` (R89). -/
  | printGlyph (index : Byte)
  /-- CREATE_GLYPH, tag 0x05: `index` and `bitmap[0..7]` (R90). -/
  | createGlyph (index : Byte) (bitmap : Vector Byte bitmapLen)
  /-- UNKNOWN, tags 0x06..0xFF: the tag itself is the operand (R91). -/
  | unknown (tag : Byte)
  deriving DecidableEq, Repr

end Sys2Proof
end

