-- ==== Sys2Proof/Machine/State.lean ====
section
/-! DEFINITION. State: the block's registers (spec/10_state.md R13-R23), what a model observes of it (R36), and the
plain data of the agents around it (R26-R29; log 2), with the reset state (R35, R105). -/

namespace Sys2Proof.Machine

/-- The values of the state register `ST` (R14). Its bit encoding is the open parameter `ST_ENCODING`, which no rule
observes (`St.encoding`, log 20). -/
inductive St where
  /-- The next byte is a tag. -/
  | awaitTag
  /-- The next byte is SetCursor's row. -/
  | scRow
  /-- The next byte is SetCursor's column. -/
  | scCol
  /-- The next byte is Print's length. -/
  | prLen
  /-- The next byte is Print's text byte number `CNT`. -/
  | prText
  /-- The next byte is PrintGlyph's index. -/
  | pgIdx
  /-- The next byte is CreateGlyph's index. -/
  | cgIdx
  /-- The next byte is CreateGlyph's bitmap byte number `CNT`. -/
  | cgBmp
  /-- Cycle level only: a complete command is on the command port, waiting for the driver. -/
  | issue
  deriving DecidableEq, Repr

/-- A command: one display-driver operation (R30). -/
inductive Cmd where
  | clear
  | setCursor (row col : Byte)
  | print (text : List Byte)
  | printGlyph (index : Byte)
  | defineGlyph (index : Byte) (bitmap : Vector Byte bitmapLen)
  | errorReport (tag : Byte)
  deriving DecidableEq, Repr

/-- The complete architectural state of the block (R13). -/
structure Block where
  /-- `ST` (R14). -/
  st : St
  /-- `TAG` (R15). -/
  tag : Byte
  /-- `ROW` (R16). -/
  row : Byte
  /-- `COL` (R17). -/
  col : Byte
  /-- `GIDX` (R18). -/
  gidx : Byte
  /-- `LEN` (R19). -/
  len : Count
  /-- `CNT` (R20). -/
  cnt : Count
  /-- `TEXT[0..15]` (R21). -/
  text : Vector Byte maxText
  /-- `BMP[0..7]` (R22). -/
  bmp : Vector Byte bitmapLen
  /-- `OP` (R23), cycle level only. -/
  op : OpCode
  deriving DecidableEq, Repr

/-- The reset value of every element of the block (R35). -/
def Block.reset : Block where
  st := .awaitTag
  tag := 0x00#_
  row := 0x00#_
  col := 0x00#_
  gidx := 0x00#_
  len := 0#5
  cnt := 0#5
  text := Vector.replicate maxText 0x00#_
  bmp := Vector.replicate bitmapLen 0x00#_
  op := 0#3

/-- The levels of the input pins that are not data: `rst` (R34), whether the byte source offers the byte it holds
(R26), and `cmd_ready` (R29). -/
structure Pins where
  rst : Bool
  offers : Bool
  cmdReady : Bool
  deriving DecidableEq, Repr

/-- What the outside does around one rising edge: the pin levels at it, and the byte that reaches the byte source
from the line, if one does (R115). -/
structure Edge where
  pins : Pins
  arrival : Option Byte
  deriving DecidableEq, Repr

/-- The machine: the block, what is observed of it, and the plan of its environment. -/
structure State where
  /-- The block's registers (R13). -/
  blk : Block
  /-- How many bytes have been consumed (R36). -/
  consumed : Nat
  /-- The commands completed so far, oldest first (R36). -/
  trace : List Cmd
  /-- The bytes the byte source holds, in the order sent; the head is the byte it can offer (R27, R28, R40). -/
  rx : List Byte
  /-- What the outside does at the coming edges, the next edge first (log 2). -/
  sched : List Edge
  /-- The pin levels at every edge after those; nothing arrives then (log 2). -/
  levels : Pins
  /-- The model's own: how many bytes have arrived at a full byte source; it numbers the draws of
  `Config.overrunKept` (log 10). -/
  overruns : Nat
  deriving DecidableEq, Repr

/-- The reasons the machine could stop with a fault: there is none. The block's one exception is handled in place
(R93) and a stall is a wait, not a fault (R98, R99). -/
inductive Fault where
  deriving DecidableEq, Repr

/-- The reasons an instruction could have no meaning. -/
inductive Refusal where
  /-- Raised only by a dispatch arm whose instruction has no meaning yet; no arm does so here. Safe. -/
  | notModelled (mnemonic : String)
  deriving DecidableEq, Repr

/-- The machine right after reset: the block at the values of R35 and R105, nothing consumed and nothing completed.
The environment's plan is the model's choice (log 3): no byte held, nothing planned, `rst` low, the byte source
offering whatever it holds and the driver ready (R110 has the driver ready before the host sends). -/
def State.reset : State where
  blk := Block.reset
  consumed := 0
  trace := []
  rx := []
  sched := []
  levels := { rst := false, offers := true, cmdReady := true }
  overruns := 0

end Sys2Proof.Machine
end

