-- ==== Sys2Proof/Machine/Operands.lean ====
section
/-! DEFINITION. Operand assembly and the command encoding: the length clamp (spec/30_encoding.md R57), the command
codes (spec/10_state.md R31), and the command the port presents for the registers' contents (R29, R32). -/

namespace Sys2Proof.Machine

/-- `LEN <- min(L, 16)`: a saturating clamp, not a mask (R57). -/
def clampLength (declared : Byte) : Count := BitVec.ofNat 5 (min declared.toNat maxText)

/-- The code of a command (R31, R78). Codes 0 and 7 belong to none. -/
def Cmd.code : Cmd → OpCode
  | .clear => 1#3
  | .setCursor _ _ => 2#3
  | .print _ => 3#3
  | .printGlyph _ => 4#3
  | .defineGlyph _ _ => 5#3
  | .errorReport _ => 6#3

/-- `TEXT[0..LEN)`, the text of the Print command (R32). -/
def Block.textPrefix (b : Block) : List Byte := b.text.toList.take b.len.toNat

/-- The command that `cmd_op` and its valid fields stand for (R32); codes 0 and 7 stand for none (R31). -/
def Block.commandOfOp (b : Block) : Option Cmd :=
  if b.op = 1#3 then some .clear
  else if b.op = 2#3 then some (.setCursor b.row b.col)
  else if b.op = 3#3 then some (.print b.textPrefix)
  else if b.op = 4#3 then some (.printGlyph b.gidx)
  else if b.op = 5#3 then some (.defineGlyph b.gidx b.bmp)
  else if b.op = 6#3 then some (.errorReport b.tag)
  else none

end Sys2Proof.Machine
end

