-- ==== Sys2Proof/Machine/Flags.lean ====
section
/-! DEFINITION. The block has no status flags or condition codes (spec/10_state.md R24); the encoding of `ST` (R8,
R14) and its one-bit outputs stand here, each decoded from `ST` alone, and the command port they belong to (R26, R29;
spec/40_framer.md R79, R81). -/

namespace Sys2Proof.Machine

/-- The place of a value of `ST` in the list of R14. -/
def St.index : St → Nat
  | .awaitTag => 0
  | .scRow => 1
  | .scCol => 2
  | .prLen => 3
  | .prText => 4
  | .pgIdx => 5
  | .cgIdx => 6
  | .cgBmp => 7
  | .issue => 8

/-- The bits of `ST` as a number, by the open parameter `ST_ENCODING` (R8, D7). No rule and no output reads it. -/
def St.encoding (v : St) : Nat := Config.stEncoding v.index

/-- `rx_ready`: the block will take an offered byte (R79). -/
def Block.rxReady (b : Block) : Bool := b.st != .issue

/-- `cmd_valid`: a command is on the command port (R29, R81). -/
def Block.cmdValid (b : Block) : Bool := b.st == .issue

/-- The outputs of the command port (R29). -/
structure CommandPort where
  cmdValid : Bool
  cmdOp : OpCode
  cmdRow : Byte
  cmdCol : Byte
  cmdIndex : Byte
  cmdLen : Count
  cmdText : Vector Byte maxText
  cmdBitmap : Vector Byte bitmapLen
  cmdTag : Byte
  deriving DecidableEq, Repr

/-- Every output but `cmd_valid` is a direct view of a register (R29). -/
def Block.commandPort (b : Block) : CommandPort where
  cmdValid := b.cmdValid
  cmdOp := b.op
  cmdRow := b.row
  cmdCol := b.col
  cmdIndex := b.gidx
  cmdLen := b.len
  cmdText := b.text
  cmdBitmap := b.bmp
  cmdTag := b.tag

/-- The command presented on the port: one exactly while `cmd_valid = 1` (R32). -/
def Block.presented (b : Block) : Option Cmd := if b.cmdValid then b.commandOfOp else none

end Sys2Proof.Machine
end

