-- ==== Sys2Proof/Machine/Ops.lean ====
section
/-! DEFINITION. The named operations on the registers and buffers (the primitives of spec/00_scope.md R10), issuing
and completing a command (spec/40_framer.md R78, R80), and taking and leaving the one exception
(spec/60_exceptions.md R93-R95). -/

namespace Sys2Proof.Machine

/-! ## `REG <- v` and `st <- S` (R10) -/

def Block.setSt (b : Block) (v : St) : Block := { b with st := v }
def Block.setTag (b : Block) (v : Byte) : Block := { b with tag := v }
def Block.setRow (b : Block) (v : Byte) : Block := { b with row := v }
def Block.setCol (b : Block) (v : Byte) : Block := { b with col := v }
def Block.setGidx (b : Block) (v : Byte) : Block := { b with gidx := v }
def Block.setLen (b : Block) (v : Count) : Block := { b with len := v }
def Block.setCnt (b : Block) (v : Count) : Block := { b with cnt := v }
def Block.setOp (b : Block) (v : OpCode) : Block := { b with op := v }
/-- All of `TEXT` at once. -/
def Block.setText (b : Block) (v : Vector Byte maxText) : Block := { b with text := v }
/-- All of `BMP` at once. -/
def Block.setBmp (b : Block) (v : Vector Byte bitmapLen) : Block := { b with bmp := v }

/-! ## `BUF[i] <- v` (R10) -/

/-- `TEXT[i] <- v`. The framer only asks for `i < 16` (R73); a larger `i` writes nothing (log 7). -/
def Block.writeText (b : Block) (i : Nat) (v : Byte) : Block := b.setText (b.text.setIfInBounds i v)

/-- `BMP[i] <- v`. The framer only asks for `i < 8` (R73); a larger `i` writes nothing (log 7). -/
def Block.writeBmp (b : Block) (i : Nat) (v : Byte) : Block := b.setBmp (b.bmp.setIfInBounds i v)

/-- The loop `for k: BUF[k] <- ReadByte()` of R71, from element `k` on: the bytes in arrival order (R41). -/
def storeBytes {n : Nat} (buf : Vector Byte n) : Nat → List Byte → Vector Byte n
  | _, [] => buf
  | k, v :: vs => storeBytes (buf.setIfInBounds k v) (k + 1) vs

/-! ## Commands -/

/-- A packet has ended with command `c`: its code goes to `OP` and the block enters `ISSUE` (R78). -/
def Block.issue (b : Block) (c : Cmd) : Block := (b.setOp c.code).setSt .issue

/-- The command beat: the driver has completed the command, the block awaits the next tag, and no other register
changes (R80). -/
def Block.complete (b : Block) : Block := b.setSt .awaitTag

/-! ## The exception -/

/-- Entry to ProtocolDecodeError at cycle level: `TAG` holds the tag, which is the cause code, and the report command
is issued; nothing is saved, no mode or mask changes and there is no jump (R93, R94). -/
def Block.raiseDecodeError (b : Block) (tag : Byte) : Block := (b.setTag tag).issue (.errorReport tag)

/-- Return from ProtocolDecodeError: the report's command beat, with nothing to restore (R95). -/
def Block.returnFromDecodeError (b : Block) : Block := b.complete

/-! ## The state around the block -/

/-- Change the block's registers and nothing around them. -/
def State.onBlock (s : State) (f : Block → Block) : State := { s with blk := f s.blk }

end Sys2Proof.Machine
end

