-- ==== Sys2Proof/Machine/Control.lean ====
section
/-! DEFINITION. The meanings of the packets without payload: IDLE, CLEAR and UNKNOWN (spec/41_packets.md R85, R86,
R91). A meaning is the effect of the whole packet, from `AWAIT_TAG` to the edge that consumes its last byte; the bytes
themselves have been consumed by the step that calls it. -/

namespace Sys2Proof.Machine

/-- IDLE (R85): `TAG` is written and nothing is issued. -/
def execIdle (s : State) : Host.Outcome State Fault Refusal :=
  .next (s.onBlock fun b => (b.setTag tagIdle).setSt .awaitTag)

/-- CLEAR (R86). -/
def execClear (s : State) : Host.Outcome State Fault Refusal :=
  .next (s.onBlock fun b => (b.setTag tagClear).issue .clear)

/-- UNKNOWN (R91): ProtocolDecodeError, handled in place. -/
def execUnknown (tag : Byte) (s : State) : Host.Outcome State Fault Refusal :=
  .next (s.onBlock fun b => b.raiseDecodeError tag)

end Sys2Proof.Machine
end

