-- ==== Sys2Proof/Machine/Cursor.lean ====
section
/-! DEFINITION. The meaning of SET_CURSOR (spec/41_packets.md R87). -/

namespace Sys2Proof.Machine

/-- SET_CURSOR (R87): the row and column bytes as received, with no range check (R16, R17). -/
def execSetCursor (row col : Byte) (s : State) : Host.Outcome State Fault Refusal :=
  .next (s.onBlock fun b => (((b.setTag tagSetCursor).setRow row).setCol col).issue (.setCursor row col))

end Sys2Proof.Machine
end

