-- ==== Sys2Proof/Machine/Glyph.lean ====
section
/-! DEFINITION. The meanings of the glyph packets PRINT_GLYPH and CREATE_GLYPH (spec/41_packets.md R89, R90). -/

namespace Sys2Proof.Machine

/-- PRINT_GLYPH (R89): the index as received, neither clamped nor masked (R18). -/
def execPrintGlyph (index : Byte) (s : State) : Host.Outcome State Fault Refusal :=
  .next (s.onBlock fun b => ((b.setTag tagPrintGlyph).setGidx index).issue (.printGlyph index))

/-- CREATE_GLYPH (R90): the index as received, all 8 bits of each of the 8 bitmap bytes, `CNT` counted up to 8. -/
def execCreateGlyph (index : Byte) (bitmap : Vector Byte bitmapLen) (s : State) : Host.Outcome State Fault Refusal :=
  .next (s.onBlock fun b =>
    ((((b.setTag tagCreateGlyph).setGidx index).setCnt (BitVec.ofNat 5 bitmapLen)).setBmp bitmap).issue
      (.defineGlyph index bitmap))

end Sys2Proof.Machine
end

