-- ==== Sys2Proof/Machine/Text.lean ====
section
/-! DEFINITION. The meaning of PRINT (spec/41_packets.md R88). -/

namespace Sys2Proof.Machine

/-- The registers after a Print packet: `LEN` is the clamped length, `CNT` has counted up to it, and the text bytes
are in `TEXT[0..N)`; `TEXT[N..16)` keep their values (R88, R38). -/
def Block.storePrint (b : Block) (declared : Byte) (text : List Byte) : Block :=
  (((b.setTag tagPrint).setLen (clampLength declared)).setCnt (clampLength declared)).setText (storeBytes b.text 0 text)

/-- PRINT (R88). -/
def execPrint (declared : Byte) (text : List Byte) (s : State) : Host.Outcome State Fault Refusal :=
  .next (s.onBlock fun b => (b.storePrint declared text).issue (.print text))

end Sys2Proof.Machine
end

