-- ==== Sys2Proof/Machine/Dispatch.lean ====
section
/-! DEFINITION. One arm per packet: the tag map of spec/30_encoding.md R53. -/

namespace Sys2Proof.Machine

def exec (i : Instr) (s : State) : Host.Outcome State Fault Refusal :=
  match i with
  | .idle => Sys2Proof.Machine.execIdle s
  | .clear => Sys2Proof.Machine.execClear s
  | .setCursor row col => Sys2Proof.Machine.execSetCursor row col s
  | .print declared text => Sys2Proof.Machine.execPrint declared text s
  | .printGlyph index => Sys2Proof.Machine.execPrintGlyph index s
  | .createGlyph index bitmap => Sys2Proof.Machine.execCreateGlyph index bitmap s
  | .unknown tag => Sys2Proof.Machine.execUnknown tag s

end Sys2Proof.Machine
end

