-- ==== Sys2Proof/WellFormed.lean ====
section
/-! DEFINITION. Which instructions the encoding admits: exactly those some byte sequence encodes (R53-R57). -/

namespace Sys2Proof

/-- The effective text length `min(L, MAX_TEXT)` of a declared length byte (R57). -/
abbrev Instr.textLength (declared : Byte) : Nat := min declared.toNat maxText

/-- Well-formed: a Print carries exactly `min(L, 16)` text bytes (R57, R88), and an unknown tag is a byte no other
row of the tag map takes, 0x06..0xFF (R53, R91). Every other field may be any byte (R56). -/
def Instr.wf : Instr → Bool
  | .idle => true
  | .clear => true
  | .setCursor _ _ => true
  | .print declared text => text.length == Instr.textLength declared
  | .printGlyph _ => true
  | .createGlyph _ _ => true
  | .unknown tag => decide (tagCreateGlyph.toNat < tag.toNat)

end Sys2Proof
end

