-- ==== Sys2Proof/Decode.lean ====
section
/-! DEFINITION. The packet framer as a decoder: total on any bytes, rejecting by name what is not yet a whole packet;
then the encoder, from the same format table (spec/30_encoding.md R51-R58). -/

namespace Sys2Proof

/-- Why a byte sequence does not begin with a whole packet. No tag is ever rejected (R53, R73). -/
inductive DecodeError where
  /-- There is no byte at all: the block polls (R71 step 1, R76). -/
  | noByte
  /-- The packet with this tag has begun but bytes of it are missing: the block waits inside it (R76, R98). -/
  | incomplete (tag : Byte)
  deriving DecidableEq, Repr

/-- The first `n` bytes and the rest, if there are `n`. -/
def splitExactly (n : Nat) (bs : List Byte) : Option (List Byte × List Byte) :=
  if n ≤ bs.length then some (bs.take n, bs.drop n) else none

/-- Exactly `n` bytes as a vector, in arrival order (R41). -/
def bytesToVector (n : Nat) (bs : List Byte) : Option (Vector Byte n) :=
  if h : bs.length = n then some ⟨bs.toArray, by simpa using h⟩ else none

/-- Format F2: `row`, `col` after the tag (R54). -/
def decodeSetCursor : List Byte → Except DecodeError (Instr × List Byte)
  | row :: col :: rest => .ok (.setCursor row col, rest)
  | _ => .error (.incomplete tagSetCursor)

/-- Format FP: the declared length `L`, then `min(L, 16)` text bytes; bytes beyond are the next packet's (R54, R57). -/
def decodePrint : List Byte → Except DecodeError (Instr × List Byte)
  | declared :: bs =>
    match splitExactly (Instr.textLength declared) bs with
    | some (text, rest) => .ok (.print declared text, rest)
    | none => .error (.incomplete tagPrint)
  | [] => .error (.incomplete tagPrint)

/-- Format F1: `index` after the tag (R54). -/
def decodePrintGlyph : List Byte → Except DecodeError (Instr × List Byte)
  | index :: rest => .ok (.printGlyph index, rest)
  | [] => .error (.incomplete tagPrintGlyph)

/-- Format F9: `index`, then the bitmap bytes (R54). -/
def decodeCreateGlyph : List Byte → Except DecodeError (Instr × List Byte)
  | index :: bs =>
    match bytesToVector bitmapLen (bs.take bitmapLen) with
    | some bitmap => .ok (.createGlyph index bitmap, bs.drop bitmapLen)
    | none => .error (.incomplete tagCreateGlyph)
  | [] => .error (.incomplete tagCreateGlyph)

/-- The first packet of a byte sequence that starts at a packet boundary, and the bytes after it. The whole tag byte
selects the format (R52, R53, R58); nothing before the tag matters. -/
def decode : List Byte → Except DecodeError (Instr × List Byte)
  | [] => .error .noByte
  | tag :: bs =>
    if tag = tagIdle then .ok (.idle, bs)
    else if tag = tagClear then .ok (.clear, bs)
    else if tag = tagSetCursor then decodeSetCursor bs
    else if tag = tagPrint then decodePrint bs
    else if tag = tagPrintGlyph then decodePrintGlyph bs
    else if tag = tagCreateGlyph then decodeCreateGlyph bs
    else .ok (.unknown tag, bs)

/-- The wire bytes of a packet, first byte first (R51, R54). -/
def encode : Instr → List Byte
  | .idle => [tagIdle]
  | .clear => [tagClear]
  | .setCursor row col => [tagSetCursor, row, col]
  | .print declared text => tagPrint :: declared :: text
  | .printGlyph index => [tagPrintGlyph, index]
  | .createGlyph index bitmap => tagCreateGlyph :: index :: bitmap.toList
  | .unknown tag => [tag]

/-- The packet lengths of R55. -/
def Instr.length : Instr → Nat
  | .idle => 1
  | .clear => 1
  | .setCursor _ _ => 3
  | .print declared _ => 2 + Instr.textLength declared
  | .printGlyph _ => 2
  | .createGlyph _ _ => 2 + bitmapLen
  | .unknown _ => 1

/-- The mnemonic of R53. -/
def Instr.mnemonic : Instr → String
  | .idle => "IDLE"
  | .clear => "CLEAR"
  | .setCursor _ _ => "SET_CURSOR"
  | .print _ _ => "PRINT"
  | .printGlyph _ => "PRINT_GLYPH"
  | .createGlyph _ _ => "CREATE_GLYPH"
  | .unknown _ => "UNKNOWN"

/-- One row of spec/opcode_table.json. -/
structure OpcodeRow where
  mnemonic : String
  mask : Byte
  pattern : Byte
  deriving DecidableEq, Repr

/-- A row takes the tags that agree with its pattern under its mask. -/
def OpcodeRow.takes (row : OpcodeRow) (tag : Byte) : Bool := tag &&& row.mask == row.pattern

/-- The mask of a row that takes one tag only: every bit counts (R52). -/
abbrev wholeTag : Byte := BitVec.allOnes _

/-- The twelve rows of spec/opcode_table.json, in its order. -/
def opcodeTable : List OpcodeRow :=
  [⟨"IDLE", wholeTag, tagIdle⟩, ⟨"CLEAR", wholeTag, tagClear⟩, ⟨"SET_CURSOR", wholeTag, tagSetCursor⟩,
   ⟨"PRINT", wholeTag, tagPrint⟩, ⟨"PRINT_GLYPH", wholeTag, tagPrintGlyph⟩,
   ⟨"CREATE_GLYPH", wholeTag, tagCreateGlyph⟩] ++
  [⟨"UNKNOWN", 0xFE, 0x06⟩, ⟨"UNKNOWN", 0xF8, 0x08⟩, ⟨"UNKNOWN", 0xF0, 0x10⟩, ⟨"UNKNOWN", 0xE0, 0x20⟩,
   ⟨"UNKNOWN", 0xC0, 0x40⟩, ⟨"UNKNOWN", 0x80, 0x80⟩]

/-- An instruction word of the table laid out as the wire bytes: byte `k` is bits `8k+7..8k`, the bits from `nbits`
up are zero, up to the longest packet. -/
def tableBytes (nbits w : Nat) : List Byte :=
  (List.range longestPacket).map fun k =>
    if byteWidth * k < nbits then BitVec.ofNat _ (w / 2 ^ (byteWidth * k)) else 0#_

/-- The instruction the decoder reads from a word of the opcode table. -/
def decodeTableWord (nbits w : Nat) : Option Instr :=
  match decode (tableBytes nbits w) with
  | .ok (i, _) => some i
  | .error _ => none

end Sys2Proof
end

