-- ==== Sys2Proof/Machine/Framer.lean ====
section
/-! DEFINITION. The byte-level machine, normative (spec/40_framer.md R72, R73): one byte in, the next registers and
at most one command out. -/

namespace Sys2Proof.Machine

/-- The arm of `AWAIT_TAG`: `TAG <- b`, then the tag map (R73, R53). -/
def tagStep (b : Block) (x : Byte) : Block × Option Cmd :=
  let b := b.setTag x
  if x = tagIdle then (b.setSt .awaitTag, none)
  else if x = tagClear then (b.setSt .awaitTag, some .clear)
  else if x = tagSetCursor then (b.setSt .scRow, none)
  else if x = tagPrint then (b.setSt .prLen, none)
  else if x = tagPrintGlyph then (b.setSt .pgIdx, none)
  else if x = tagCreateGlyph then (b.setSt .cgIdx, none)
  else (b.setSt .awaitTag, some (.errorReport x))

/-- The arm of `PR_LEN` (R73, R57). -/
def printLengthStep (b : Block) (x : Byte) : Block × Option Cmd :=
  let b := (b.setLen (clampLength x)).setCnt 0#5
  if b.len = 0#5 then (b.setSt .awaitTag, some (.print []))
  else (b.setSt .prText, none)

/-- The arm of `PR_TEXT` (R73). -/
def printTextStep (b : Block) (x : Byte) : Block × Option Cmd :=
  let b := (b.writeText b.cnt.toNat x).setCnt (b.cnt + 1#5)
  if b.cnt = b.len then (b.setSt .awaitTag, some (.print b.textPrefix))
  else (b, none)

/-- The arm of `CG_BMP` (R73). -/
def bitmapStep (b : Block) (x : Byte) : Block × Option Cmd :=
  let b := (b.writeBmp b.cnt.toNat x).setCnt (b.cnt + 1#5)
  if b.cnt.toNat = bitmapLen then (b.setSt .awaitTag, some (.defineGlyph b.gidx b.bmp))
  else (b, none)

/-- `Step(σ, b)` of R73: the registers after the byte `x`, and the command it completes, if any. `OP` is no part of
this level and keeps its value (R72). `ISSUE` is no state of this level: the circuit never asks (R79; log 8). -/
def byteStep (b : Block) (x : Byte) : Block × Option Cmd :=
  match b.st with
  | .awaitTag => tagStep b x
  | .scRow => ((b.setRow x).setSt .scCol, none)
  | .scCol =>
    let b := b.setCol x
    (b.setSt .awaitTag, some (.setCursor b.row b.col))
  | .prLen => printLengthStep b x
  | .prText => printTextStep b x
  | .pgIdx =>
    let b := b.setGidx x
    (b.setSt .awaitTag, some (.printGlyph b.gidx))
  | .cgIdx => (((b.setGidx x).setCnt 0#5).setSt .cgBmp, none)
  | .cgBmp => bitmapStep b x
  | .issue => (b, none)

/-- The registers after a byte stream, at byte level (R73). -/
def byteRun (b : Block) : List Byte → Block
  | [] => b
  | x :: xs => byteRun (byteStep b x).1 xs

/-- The command trace of a byte stream: the outputs of `Step` other than none, in order (R73). -/
def byteTrace (b : Block) : List Byte → List Cmd
  | [] => []
  | x :: xs => (byteStep b x).2.toList ++ byteTrace (byteStep b x).1 xs

end Sys2Proof.Machine
end

