-- ==== Sys2Proof/Machine/Circuit.lean ====
section
/-! DEFINITION. The cycle-level circuit: what one rising edge does to the block (spec/40_framer.md R78-R83), and to
the whole state with the byte source around it (spec/10_state.md R26-R28, R33, R36; R115). -/

namespace Sys2Proof.Machine

/-- The block's inputs at an edge. `rx = some b` is `rx_valid = 1` with `rx_data = b`; `none` is `rx_valid = 0`, when
`rx_data` has no meaning (R26). -/
structure Inputs where
  rst : Bool
  rx : Option Byte
  cmdReady : Bool
  deriving DecidableEq, Repr

/-- The byte consumed at an edge: a byte beat needs `rst = 0`, `rx_valid = 1` and `rx_ready = 1` (R27). -/
def Block.byteBeat (b : Block) (i : Inputs) : Option Byte :=
  if !i.rst && b.rxReady then i.rx else none

/-- Whether the pending command completes at an edge: `rst = 0`, `cmd_valid = 1` and `cmd_ready = 1` (R33). -/
def Block.commandBeat (b : Block) (i : Inputs) : Bool := !i.rst && b.cmdValid && i.cmdReady

/-- The registers after a byte beat: `Step`, then `OP` and `ISSUE` if it put out a command (R78). -/
def Block.acceptByte (b : Block) (x : Byte) : Block :=
  match byteStep b x with
  | (b', none) => b'
  | (b', some c) => b'.issue c

/-- The block after one rising edge, the cases tested in the order of R78. -/
def Block.clockEdge (b : Block) (i : Inputs) : Block :=
  if i.rst then Block.reset
  else if b.st ≠ .issue then
    match i.rx with
    | some x => b.acceptByte x
    | none => b
  else if i.cmdReady then b.complete
  else b

/-! ## The whole state at an edge -/

/-- What the outside does at the `k`-th coming edge: the plan, then the held levels (log 2). -/
def State.edgeAt (s : State) (k : Nat) : Edge := s.sched.getD k { pins := s.levels, arrival := none }

/-- The block's inputs at the next edge: the byte source offers the head of what it holds (R26-R28). -/
def State.inputs (s : State) : Inputs where
  rst := (s.edgeAt 0).pins.rst
  rx := if (s.edgeAt 0).pins.offers then s.rx.head? else none
  cmdReady := (s.edgeAt 0).pins.cmdReady

/-- Whether the byte source is full: it holds the byte it offers and `RX_FIFO_DEPTH` more (R115, D12). -/
def State.sourceFull (s : State) : Bool := decide (Config.rxFifoDepth < s.rx.length)

/-- Whether a byte arriving now is held by the source: always when it is not full; when it is, a free choice
(R115, I10). -/
def State.arrivalKept (s : State) : Bool := !s.sourceFull || Config.overrunKept s.overruns

/-- The byte arriving at the next edge, if the source keeps it. -/
def State.arrived (s : State) : List Byte :=
  match (s.edgeAt 0).arrival with
  | some x => if s.arrivalKept then [x] else []
  | none => []

/-- What the byte source holds after a byte beat: the consumed byte is gone (R27, R44). -/
def State.rxAfterBeat (s : State) : List Byte :=
  match s.blk.byteBeat s.inputs with
  | some _ => s.rx.tail
  | none => s.rx

/-- One rising edge of the clock, for the block and the agents around it. -/
def State.clock (s : State) : State where
  blk := s.blk.clockEdge s.inputs
  consumed := s.consumed + (s.blk.byteBeat s.inputs).toList.length
  trace := s.trace ++ (if s.blk.commandBeat s.inputs then s.blk.presented.toList else [])
  rx := s.rxAfterBeat ++ s.arrived
  sched := s.sched.tail
  levels := s.levels
  overruns := s.overruns + (if (s.edgeAt 0).arrival.isSome && s.sourceFull then 1 else 0)

/-- `n` rising edges. -/
def State.clocks : Nat → State → State
  | 0, s => s
  | n + 1, s => State.clocks n s.clock

/-! ## Power-up -/

/-- Those of the bytes sent before reset has finished that the source offers after it, byte `k` by the free value
`Config.preResetByteOffered k` (R110 `PRE_RESET_BYTES`, D16). -/
def preResetKept : Nat → List Byte → List Byte
  | _, [] => []
  | k, x :: xs => if Config.preResetByteOffered k then x :: preResetKept (k + 1) xs else preResetKept (k + 1) xs

/-- The machine after the boot order of R110, when the bytes `early` had reached the byte source before the reset
edge. -/
def State.boot (early : List Byte) : State := { State.reset with rx := preResetKept 0 early }

end Sys2Proof.Machine
end

