-- ==== Sys2Proof/Machine/Fetch.lean ====
section
/-! DEFINITION. Finding the next packet in the byte stream: which bytes the byte port will carry back to back, and
taking a whole packet from it (spec/40_framer.md R71, R74-R76; log 1). -/

namespace Sys2Proof.Machine

/-- An edge at which a receiving block with a byte on offer just consumes it: no reset, the source offers, and nothing
arrives at the source meanwhile. -/
def Edge.streams (e : Edge) : Bool := !e.pins.rst && e.pins.offers && e.arrival.isNone

/-- The bytes a receiving block will consume at successive edges from edge `k` on, at most `fuel` of them, up to the
first edge that does not stream or the last byte held. -/
def State.burstFrom (s : State) : Nat → Nat → List Byte → List Byte
  | 0, _, _ => []
  | _ + 1, _, [] => []
  | fuel + 1, k, x :: xs => if (s.edgeAt k).streams then x :: State.burstFrom s fuel (k + 1) xs else []

/-- The bytes offered back to back from the next edge on, as far as the longest packet needs. -/
def State.burst (s : State) : List Byte := s.burstFrom longestPacket 0 s.rx

/-- The packet that begins at the next edge and whose bytes the port carries back to back; none if the block is not
at a packet boundary (R74) or the packet is not there whole. -/
def State.fetch (s : State) : Option Instr :=
  if s.blk.st = .awaitTag then
    match decode s.burst with
    | .ok (i, _) => some i
    | .error _ => none
  else none

/-- `n` bytes have been consumed at `n` edges (R27, R75); the block's registers are not touched. -/
def State.consume (s : State) (n : Nat) : State :=
  { s with consumed := s.consumed + n, rx := s.rx.drop n, sched := s.sched.drop n }

/-- Edges that offer the bytes held without interruption, the driver's pin as it stands. -/
def State.streamingEdges (s : State) (n : Nat) : List Edge :=
  List.replicate n { pins := { s.levels with rst := false, offers := true }, arrival := none }

/-- The block at a packet boundary with the bytes `bs` next on the port, back to back, before whatever the environment
holds and plans. -/
def State.withStream (s : State) (bs : List Byte) : State :=
  { s with blk := s.blk.setSt .awaitTag, rx := bs ++ s.rx, sched := s.streamingEdges bs.length ++ s.sched }

end Sys2Proof.Machine
end

