-- ==== Sys2Proof/Machine/Step.lean ====
section
/-! DEFINITION. One step of the machine: one turn of the dispatch loop (spec/40_framer.md R71) when a whole packet is on
the port, else one rising edge (R78). Every step is a run of one or more edges (log 1). -/

namespace Sys2Proof.Machine

/-- One step. At a packet boundary with a whole packet offered back to back, the step consumes it and runs it, which
takes as many edges as the packet has bytes (R75). Otherwise the step is one edge: a byte of a packet that comes with
gaps or in parts, the driver's completion, a reset, or waiting (R76, R83). It never faults and never refuses. -/
def step (s : State) : Host.Outcome State Fault Refusal :=
  match s.fetch with
  | some i => exec i (s.consume i.length)
  | none => .next s.clock

/-- `s` with a table word's packet next on the byte port, so that the next step runs exactly it (log 4). -/
def State.withFetchWord (s : State) (nbits w : Nat) : State := s.withStream (tableBytes nbits w)

end Sys2Proof.Machine
end

