-- ==== Sys2Proof/Machine/HostEncoder.lean ====
section
/-! DEFINITION. The host encoder, outside the block: which byte streams a conforming host sends (spec/30_encoding.md
R61-R68). Its operations are pure functions; the machine's step never calls them. The 50 ms pause after each send
(R68) is a time and is left out. -/

namespace Sys2Proof.Machine

/-- `Enc` of R61, with no clamping: defined for texts of at most 16 bytes, and never for an error report. -/
def Cmd.enc : Cmd → Option (List Byte)
  | .clear => some [tagClear]
  | .setCursor row col => some [tagSetCursor, row, col]
  | .print text => if text.length ≤ maxText then some (tagPrint :: BitVec.ofNat _ text.length :: text) else none
  | .printGlyph index => some [tagPrintGlyph, index]
  | .defineGlyph index bitmap => some (tagCreateGlyph :: index :: bitmap.toList)
  | .errorReport _ => none

/-- Why a send operation writes no bytes. -/
inductive HostError where
  /-- ConfigurationError: the transport is not open (R68, R101). -/
  | configurationError
  /-- An operand the spec gives no byte for: outside 0..255, or a negative glyph index (R63, R65, R66, I15). -/
  | operandRefused
  /-- A hex token for which `HEX_TOKEN_EDGE` gives no byte (R67, I14). -/
  | hexTokenRefused
  deriving DecidableEq, Repr

/-- The byte of an integer operand, for 0..255 only (R63, R65). -/
def byteOfInt (v : Int) : Option Byte := if 0 ≤ v ∧ v < 2 ^ byteWidth then some (BitVec.ofNat _ v.toNat) else none

/-! ## Hex bitmaps (R67) -/

/-- The value of a hexadecimal digit: `0-9`, `A-F`, and `a-f` (R67; 93_implementation_defined.md G2). -/
def hexDigit (c : Char) : Option Nat :=
  if 48 ≤ c.toNat ∧ c.toNat ≤ 57 then some (c.toNat - 48)
  else if 65 ≤ c.toNat ∧ c.toNat ≤ 70 then some (c.toNat - 55)
  else if 97 ≤ c.toNat ∧ c.toNat ≤ 102 then some (c.toNat - 87)
  else none

/-- `HexByte` of R67: one or two hex digits give their value in base 16, a token with no hex digit gives 0x00, and any
other token is the open parameter. -/
def hexByte (tok : List Char) : Option Byte :=
  if tok.all fun c => (hexDigit c).isNone then some 0x00
  else
    match tok.map hexDigit with
    | [some d] => some (BitVec.ofNat _ d)
    | [some d, some e] => some (BitVec.ofNat _ (16 * d + e))
    | _ => Config.hexTokenEdge tok

/-- White space that separates hex tokens (R67 does not list it; log 13). -/
def isSeparator (c : Char) : Bool := c.toNat == 32 || (9 ≤ c.toNat && c.toNat ≤ 13)

/-- The text split at runs of white space, empty tokens dropped (R67); `cur` is the token being read. -/
def splitTokens (cur : List Char) : List Char → List (List Char)
  | [] => if cur.isEmpty then [] else [cur]
  | c :: cs =>
    if isSeparator c then (if cur.isEmpty then splitTokens [] cs else cur :: splitTokens [] cs)
    else splitTokens (cur ++ [c]) cs

/-- `n` bitmap bytes from the tokens: missing tokens give 0x00, surplus tokens are ignored (R67). -/
def bytesOfTokens : (n : Nat) → List (List Char) → Option (List Byte)
  | 0, _ => some []
  | n + 1, [] => (bytesOfTokens n []).map (0x00#_ :: ·)
  | n + 1, tok :: toks =>
    match hexByte tok, bytesOfTokens n toks with
    | some x, some xs => some (x :: xs)
    | _, _ => none

/-- `HexBitmap(text)` of R67. -/
def hexBitmap (text : List Char) : Option (List Byte) := bytesOfTokens bitmapLen (splitTokens [] text)

/-! ## The send operations -/

/-- `send_clear()` (R62). -/
def sendClear : List Byte := [tagClear]

/-- `send_set_cursor(row, column)` (R63). -/
def sendSetCursor (row col : Int) : Except HostError (List Byte) :=
  match byteOfInt row, byteOfInt col with
  | some r, some c => .ok [tagSetCursor, r, c]
  | _, _ => .error .operandRefused

/-- `send_print(message)` (R64): header and truncated payload, one packet. -/
def sendPrint (message : List Byte) : List Byte :=
  tagPrint :: BitVec.ofNat _ (min message.length maxText) :: message.take maxText

/-- `send_glyph(index)` (R65): no range clamp. -/
def sendGlyph (index : Int) : Except HostError (List Byte) :=
  match byteOfInt index with
  | some i => .ok [tagPrintGlyph, i]
  | none => .error .operandRefused

/-- `send_create_glyph(index, bitmap_text)` (R66): the index saturates at 7, the bitmap is `HexBitmap`. -/
def sendCreateGlyph (index : Int) (bitmapText : List Char) : Except HostError (List Byte) :=
  if index < 0 then .error .operandRefused
  else
    match hexBitmap bitmapText with
    | some m => .ok (tagCreateGlyph :: BitVec.ofNat _ (min index.toNat hostGlyphMax) :: m)
    | none => .error .hexTokenRefused

/-- The host's operations (R62-R66). -/
inductive HostOp where
  | clear
  | setCursor (row col : Int)
  | print (message : List Byte)
  | glyph (index : Int)
  | createGlyph (index : Int) (bitmapText : List Char)
  deriving DecidableEq, Repr

/-- The bytes an operation writes: none, failing fast, while the transport is not open (R68). -/
def HostOp.send (transportOpen : Bool) (o : HostOp) : Except HostError (List Byte) :=
  if transportOpen then
    match o with
    | .clear => .ok sendClear
    | .setCursor row col => sendSetCursor row col
    | .print message => .ok (sendPrint message)
    | .glyph index => sendGlyph index
    | .createGlyph index bitmapText => sendCreateGlyph index bitmapText
  else .error .configurationError

end Sys2Proof.Machine
end

