-- ==== Sys2Proof/Safety.lean ====
section
/-! DEFINITION. What every state of a run satisfies: the bounds the spec states for the registers (spec/10_state.md
R19, R20; spec/40_framer.md R73) and what `ST` says about `TAG` and `OP`. -/

namespace Sys2Proof.Machine

/-- The tag of the packet the block is inside, while it is inside one (R14, R15, R73). -/
def St.packetTag : St → Option Byte
  | .awaitTag => none
  | .scRow => some tagSetCursor
  | .scCol => some tagSetCursor
  | .prLen => some tagPrint
  | .prText => some tagPrint
  | .pgIdx => some tagPrintGlyph
  | .cgIdx => some tagCreateGlyph
  | .cgBmp => some tagCreateGlyph
  | .issue => none

/-- The command code a tag leads to (R31); none for the idle tag, which issues nothing. -/
def codeOfTag (tag : Byte) : Option OpCode :=
  if tag = tagIdle then none
  else if tag = tagClear then some 1#3
  else if tag = tagSetCursor then some 2#3
  else if tag = tagPrint then some 3#3
  else if tag = tagPrintGlyph then some 4#3
  else if tag = tagCreateGlyph then some 5#3
  else some 6#3

/-- The block's invariant. -/
structure Block.Inv (b : Block) : Prop where
  /-- `LEN` never exceeds 16 (R19). -/
  len_le : b.len.toNat ≤ maxText
  /-- `CNT` takes the values 0..16 only (R20). -/
  cnt_le : b.cnt.toNat ≤ maxText
  /-- In `PR_TEXT`, `CNT < LEN` (R73). -/
  text_cnt : b.st = .prText → b.cnt.toNat < b.len.toNat
  /-- In `CG_BMP`, `CNT < 8` (R73). -/
  bitmap_cnt : b.st = .cgBmp → b.cnt.toNat < bitmapLen
  /-- Inside a packet, `TAG` is that packet's tag (R15). -/
  tag_of_packet : ∀ t, b.st.packetTag = some t → b.tag = t
  /-- In `ISSUE`, `OP` is the code of the tag's command: never 0 and never 7 (R31). -/
  op_of_issue : b.st = .issue → codeOfTag b.tag = some b.op

/-- The machine's invariant is the block's: the agents around it may hold and plan anything. -/
def State.Inv (s : State) : Prop := s.blk.Inv

/-! ## Vocabulary of the claims -/

/-- The command a packet issues (R53): none for the idle packet only. -/
def packetCommand : Instr → Option Cmd
  | .idle => none
  | .clear => some .clear
  | .setCursor row col => some (.setCursor row col)
  | .print _ text => some (.print text)
  | .printGlyph index => some (.printGlyph index)
  | .createGlyph index bitmap => some (.defineGlyph index bitmap)
  | .unknown tag => some (.errorReport tag)

/-- At none of the coming edges is `rst` asserted, and no byte arrives at the byte source. -/
def State.undisturbed (s : State) : Prop := ∀ k, (s.edgeAt k).pins.rst = false ∧ (s.edgeAt k).arrival = none

/-- The machine after reset with the byte stream `bs` in the byte source, under a plan of the environment. -/
def State.fed (bs : List Byte) (sched : List Edge) (levels : Pins) : State :=
  { State.reset with rx := bs, sched := sched, levels := levels }

end Sys2Proof.Machine
end

