-- ==== Sys2Proof/Certificates/Slice0/Obligations.lean ====
section
/-! DEFINITION. The statements for the provers. Each docstring names the rule of spec/ it comes from. -/

open Sys2Proof Sys2Proof.Machine

/-! ## Encoding -/

/-- Every well-formed packet decodes back to itself, with every operand, whatever bytes follow (R51, R54, R58). -/
def Obligations.DecodeOfEncodeIsTheInstruction : Prop :=
  ∀ (i : Instr) (rest : List Byte), i.wf = true → decode (encode i ++ rest) = .ok (i, rest)

/-- What the decoder takes as a packet is well formed and is exactly the bytes that encode it (R51, R54). -/
def Obligations.EncodeOfDecodeIsTheBytes : Prop :=
  ∀ (bs : List Byte) (i : Instr) (rest : List Byte),
    decode bs = .ok (i, rest) → i.wf = true ∧ encode i ++ rest = bs

/-- A packet some of whose last bytes are missing is rejected as incomplete, under its own tag; no byte at all is
rejected as such (R45, R58). -/
def Obligations.PartialPacketIsIncomplete : Prop :=
  ∀ (i : Instr) (front back : List Byte), i.wf = true → encode i = front ++ back → back ≠ [] →
    (front = [] → decode front = .error .noByte) ∧
    (∀ tag more, front = tag :: more → decode front = .error (.incomplete tag))

/-- The packet lengths of R55, with the two ends of Print's range. -/
def Obligations.PacketLengthsAreTheTables : Prop :=
  (encode .idle).length = 1 ∧ (encode .clear).length = 1 ∧
  (∀ row col, (encode (.setCursor row col)).length = 3) ∧
  (∀ declared text, (Instr.print declared text).wf = true →
    (encode (.print declared text)).length = 2 + min declared.toNat 16 ∧
    (declared.toNat = 0 → (encode (.print declared text)).length = 2) ∧
    (16 ≤ declared.toNat → (encode (.print declared text)).length = 18)) ∧
  (∀ index, (encode (.printGlyph index)).length = 2) ∧
  (∀ index bitmap, (encode (.createGlyph index bitmap)).length = 10) ∧
  (∀ tag rest, 6 ≤ tag.toNat → (encode (.unknown tag)).length = 1 ∧ decode (tag :: rest) = .ok (.unknown tag, rest))

/-- Each of the 256 tag values selects exactly one row of the opcode table, and a packet with that tag decodes to that
row's packet class: the whole byte counts (R52). -/
def Obligations.EachTagSelectsOneRow : Prop :=
  ∀ tag : Byte, ∃ row, opcodeTable.filter (·.takes tag) = [row] ∧
    ∀ bs i rest, decode (tag :: bs) = .ok (i, rest) → i.mnemonic = row.mnemonic ∧ (encode i).head? = some tag

/-- Bytes written out from the formats of R54, with the packet each stands for. -/
def Obligations.WrittenOutPacketsDecode : Prop :=
  decode [0x00#8] = .ok (.idle, []) ∧
  decode [0x01#8, 0x00#8] = .ok (.clear, [0x00#8]) ∧
  decode [0x02#8, 0x01#8, 0x04#8] = .ok (.setCursor 1 4, []) ∧
  decode [0x03#8, 0x02#8, 0x48#8, 0x49#8] = .ok (.print 2 [0x48#8, 0x49#8], []) ∧
  decode [0x04#8, 0x07#8] = .ok (.printGlyph 7, []) ∧
  decode [0x05#8, 0x00#8, 0x1F#8, 0x0A#8, 0x00#8, 0x00#8, 0x00#8, 0x00#8, 0x00#8, 0x00#8] =
    .ok (.createGlyph 0 #v[0x1F#8, 0x0A#8, 0, 0, 0, 0, 0, 0], []) ∧
  decode [0x63#8, 0x01#8] = .ok (.unknown 99, [0x01#8])

/-- R57: the effective length is min(L, 16), a saturating clamp and not a mask, and exactly that many text bytes
belong to the packet. -/
def Obligations.PrintLengthSaturatesAtSixteen : Prop :=
  (∀ declared : Byte, (clampLength declared).toNat = min declared.toNat 16) ∧
  (clampLength 17).toNat = 16 ∧
  (∀ (declared : Byte) (text rest : List Byte), text.length = min declared.toNat 16 →
    decode (0x03#8 :: declared :: (text ++ rest)) = .ok (.print declared text, rest))

/-! ## The byte-level machine -/

/-- R73: the step function, arm by arm. In `PR_TEXT` and `CG_BMP` the bounds that hold on entry are premises; the last
two clauses say that they do hold on entry, after any byte stream from reset, and what the command trace is. -/
def Obligations.ByteStepFollowsEveryArm : Prop :=
  (∀ (b : Block) (x : Byte),
    (b.st = .awaitTag →
      (x = 0x00#8 → byteStep b x = ({ b with tag := x, st := .awaitTag }, none)) ∧
      (x = 0x01#8 → byteStep b x = ({ b with tag := x, st := .awaitTag }, some .clear)) ∧
      (x = 0x02#8 → byteStep b x = ({ b with tag := x, st := .scRow }, none)) ∧
      (x = 0x03#8 → byteStep b x = ({ b with tag := x, st := .prLen }, none)) ∧
      (x = 0x04#8 → byteStep b x = ({ b with tag := x, st := .pgIdx }, none)) ∧
      (x = 0x05#8 → byteStep b x = ({ b with tag := x, st := .cgIdx }, none)) ∧
      (6 ≤ x.toNat → byteStep b x = ({ b with tag := x, st := .awaitTag }, some (.errorReport x)))) ∧
    (b.st = .scRow → byteStep b x = ({ b with row := x, st := .scCol }, none)) ∧
    (b.st = .scCol → byteStep b x = ({ b with col := x, st := .awaitTag }, some (.setCursor b.row x))) ∧
    (b.st = .prLen →
      (x = 0 → byteStep b x = ({ b with len := 0, cnt := 0, st := .awaitTag }, some (.print []))) ∧
      (x ≠ 0 → byteStep b x = ({ b with len := BitVec.ofNat 5 (min x.toNat 16), cnt := 0, st := .prText }, none))) ∧
    (b.st = .prText → b.cnt.toNat < b.len.toNat → b.len.toNat ≤ 16 →
      ∃ text : Vector Byte maxText, text[b.cnt.toNat]? = some x ∧
        (∀ j, j ≠ b.cnt.toNat → text[j]? = b.text[j]?) ∧
        (b.cnt.toNat + 1 = b.len.toNat → byteStep b x =
          ({ b with text := text, cnt := b.cnt + 1, st := .awaitTag },
            some (.print (text.toList.take b.len.toNat)))) ∧
        (b.cnt.toNat + 1 ≠ b.len.toNat → byteStep b x = ({ b with text := text, cnt := b.cnt + 1 }, none))) ∧
    (b.st = .pgIdx → byteStep b x = ({ b with gidx := x, st := .awaitTag }, some (.printGlyph x))) ∧
    (b.st = .cgIdx → byteStep b x = ({ b with gidx := x, cnt := 0, st := .cgBmp }, none)) ∧
    (b.st = .cgBmp → b.cnt.toNat < 8 →
      ∃ bmp : Vector Byte bitmapLen, bmp[b.cnt.toNat]? = some x ∧
        (∀ j, j ≠ b.cnt.toNat → bmp[j]? = b.bmp[j]?) ∧
        (b.cnt.toNat = 7 → byteStep b x =
          ({ b with bmp := bmp, cnt := b.cnt + 1, st := .awaitTag }, some (.defineGlyph b.gidx bmp))) ∧
        (b.cnt.toNat ≠ 7 → byteStep b x = ({ b with bmp := bmp, cnt := b.cnt + 1 }, none)))) ∧
  (∀ bs : List Byte,
    ((byteRun Block.reset bs).st = .prText →
      (byteRun Block.reset bs).cnt.toNat < (byteRun Block.reset bs).len.toNat ∧
      (byteRun Block.reset bs).len.toNat ≤ 16) ∧
    ((byteRun Block.reset bs).st = .cgBmp → (byteRun Block.reset bs).cnt.toNat < 8)) ∧
  (∀ (bs : List Byte) (x : Byte), byteTrace Block.reset [] = [] ∧
    byteTrace Block.reset (bs ++ [x]) =
      byteTrace Block.reset bs ++ (byteStep (byteRun Block.reset bs) x).2.toList)

/-- R92: inside a packet every byte is stored as the field its state names, whatever its value; it never raises the
error, never touches `TAG`, and (Print's length byte apart, which is the length) never changes where the packet goes
on. -/
def Obligations.PayloadBytesAreData : Prop :=
  ∀ (b : Block) (x : Byte), b.Inv → b.st ≠ .awaitTag → b.st ≠ .issue →
    (b.st = .scRow → (byteStep b x).1.row = x) ∧
    (b.st = .scCol → (byteStep b x).1.col = x) ∧
    (b.st = .prLen → (byteStep b x).1.len.toNat = min x.toNat 16) ∧
    (b.st = .prText → (byteStep b x).1.text[b.cnt.toNat]? = some x) ∧
    (b.st = .pgIdx → (byteStep b x).1.gidx = x) ∧
    (b.st = .cgIdx → (byteStep b x).1.gidx = x) ∧
    (b.st = .cgBmp → (byteStep b x).1.bmp[b.cnt.toNat]? = some x) ∧
    (byteStep b x).1.tag = b.tag ∧
    (∀ t, (byteStep b x).2 ≠ some (.errorReport t)) ∧
    (b.st ≠ .prLen → ∀ y, (byteStep b y).1.st = (byteStep b x).1.st)

/-- R74, R75: fed the bytes of a packet one at a time from `AWAIT_TAG`, the machine is at none of the bytes before the
last back in `AWAIT_TAG`, and it is back there at the last one, so the packet takes exactly as many steps as it has
bytes. A byte consumed in `AWAIT_TAG` is always taken as a tag. -/
def Obligations.PacketReturnsToAwaitTagOnItsLastByte : Prop :=
  (∀ (b : Block) (x : Byte), b.st = .awaitTag → (byteStep b x).1.tag = x) ∧
  ∀ (b : Block) (i : Instr), b.st = .awaitTag → i.wf = true →
    (encode i).length = i.length ∧
    (byteRun b (encode i)).st = .awaitTag ∧
    (∀ front back, encode i = front ++ back → front ≠ [] → back ≠ [] →
      (byteRun b front).st ≠ .awaitTag ∧ (byteRun b front).st ≠ .issue)

/-- R77: a packet puts out nothing before its last byte, and on it exactly its one command; the idle packet none. -/
def Obligations.PacketEndsWithItsOneCommand : Prop :=
  ∀ (b : Block) (i : Instr), b.st = .awaitTag → i.wf = true →
    (∀ front back, encode i = front ++ back → back ≠ [] → byteTrace b front = []) ∧
    byteTrace b (encode i) = (packetCommand i).toList ∧
    (packetCommand i = none ↔ i = .idle)

/-- R70: the block's decoding inverts the wire encoding of R61 at every byte value: nothing before the last byte, the
command itself on it, and back in `AWAIT_TAG`. For the host encoder it holds where the clamps change nothing, and
elsewhere the block returns the clamped value. -/
def Obligations.WireRoundTrip : Prop :=
  (∀ (b : Block) (c : Cmd) (bytes : List Byte), b.st = .awaitTag → c.enc = some bytes →
    (∀ front back, bytes = front ++ back → back ≠ [] → byteTrace b front = []) ∧
    byteTrace b bytes = [c] ∧ (byteRun b bytes).st = .awaitTag) ∧
  (∀ c : Cmd, (∀ text, c = .print text → text.length ≤ 16) → (∀ tag, c ≠ .errorReport tag) → (c.enc).isSome) ∧
  Cmd.clear.enc = some sendClear ∧
  (∀ row col : Byte, (Cmd.setCursor row col).enc = (sendSetCursor row.toNat col.toNat).toOption) ∧
  (∀ index : Byte, (Cmd.printGlyph index).enc = (sendGlyph index.toNat).toOption) ∧
  (∀ message : List Byte, message.length ≤ 16 → (Cmd.print message).enc = some (sendPrint message)) ∧
  (∀ message : List Byte, (Cmd.print (message.take 16)).enc = some (sendPrint message)) ∧
  (∀ (index : Nat) (text : List Char) (bytes : List Byte) (m : Vector Byte bitmapLen),
    hexBitmap text = some m.toList → sendCreateGlyph index text = .ok bytes →
    (Cmd.defineGlyph (BitVec.ofNat 8 (min index 7)) m).enc = some bytes ∧
    (index ≤ 7 → (Cmd.defineGlyph (BitVec.ofNat 8 index) m).enc = some bytes))

/-- R37: no session state. From `AWAIT_TAG` the rest of the command trace depends only on the bytes not yet consumed,
not on any register or buffer. -/
def Obligations.TraceFromBoundaryIgnoresRegisters : Prop :=
  ∀ (b b' : Block) (bs : List Byte), b.st = .awaitTag → b'.st = .awaitTag → byteTrace b bs = byteTrace b' bs

/-- After a packet the trace goes on as from any packet boundary: streams of packets put out their commands in order
(R46, R74). -/
def Obligations.PacketStreamTracesInOrder : Prop :=
  ∀ (b : Block) (packets : List Instr), b.st = .awaitTag → (∀ i ∈ packets, i.wf = true) →
    byteTrace b (packets.flatMap encode) = packets.filterMap packetCommand

/-- R113: of an oversized Print the block prints the first 16 text bytes, and the first surplus byte is taken as the
next tag: one in 0x06..0xFF is reported, 0x00 is idle, 0x01..0x05 start packets. The host never declares more than
16. -/
def Obligations.OversizedPrintDesynchronises : Prop :=
  (∀ (b : Block) (declared : Byte) (text surplus : List Byte), b.st = .awaitTag → 16 < declared.toNat →
    text.length = 16 →
    byteTrace b (0x03#8 :: declared :: (text ++ surplus)) = Cmd.print text :: byteTrace b surplus ∧
    (byteRun b (0x03#8 :: declared :: text)).st = .awaitTag) ∧
  (∀ (b : Block) (x : Byte) (more : List Byte), b.st = .awaitTag →
    (6 ≤ x.toNat → byteTrace b (x :: more) = Cmd.errorReport x :: byteTrace b more) ∧
    (x = 0 → byteTrace b (x :: more) = byteTrace b more) ∧
    (x = 1 → byteTrace b (x :: more) = Cmd.clear :: byteTrace b more) ∧
    (2 ≤ x.toNat → x.toNat ≤ 5 → (byteStep b x).1.st ≠ .awaitTag ∧ (byteStep b x).2 = none)) ∧
  (∀ message : List Byte, ∃ n : Byte, n.toNat ≤ 16 ∧ sendPrint message = 0x03#8 :: n :: message.take 16)

/-! ## The packets, one rule each -/

/-- R85: IDLE. -/
def Obligations.IdleWritesTagOnly : Prop :=
  (∀ rest, decode (0x00#8 :: rest) = .ok (.idle, rest)) ∧
  (∀ s : State, exec .idle s = .next { s with blk := { s.blk with tag := 0x00#8, st := .awaitTag } }) ∧
  (∀ b : Block, b.st = .awaitTag → byteStep b 0x00#8 = ({ b with tag := 0x00#8 }, none)) ∧
  (∀ (b : Block) (n : Nat), b.st = .awaitTag → byteTrace b (List.replicate n 0x00#8) = [] ∧
    (byteRun b (List.replicate n 0x00#8)).st = .awaitTag)

/-- R86: CLEAR. -/
def Obligations.ClearIssuesClear : Prop :=
  (∀ rest, decode (0x01#8 :: rest) = .ok (.clear, rest)) ∧
  (∀ s : State, exec .clear s = .next { s with blk := { s.blk with tag := 0x01#8, op := 1, st := .issue } }) ∧
  (∀ s t : State, exec .clear s = .next t → t.blk.presented = some .clear) ∧
  (∀ b : Block, b.st = .awaitTag → byteStep b 0x01#8 = ({ b with tag := 0x01#8 }, some .clear))

/-- R87: SET_CURSOR. Cut short it waits in `SC_ROW` or `SC_COL` with nothing put out. -/
def Obligations.SetCursorIssuesItsBytes : Prop :=
  ∀ row col : Byte,
    (∀ rest, decode (0x02#8 :: row :: col :: rest) = .ok (.setCursor row col, rest)) ∧
    (∀ s : State, exec (.setCursor row col) s =
      .next { s with blk := { s.blk with tag := 0x02#8, row := row, col := col, op := 2, st := .issue } }) ∧
    (∀ s t : State, exec (.setCursor row col) s = .next t → t.blk.presented = some (.setCursor row col)) ∧
    (∀ b : Block, b.st = .awaitTag →
      byteTrace b [0x02#8, row, col] = [.setCursor row col] ∧
      byteRun b [0x02#8, row, col] = { b with tag := 0x02#8, row := row, col := col } ∧
      (byteRun b [0x02#8]).st = .scRow ∧ (byteRun b [0x02#8, row]).st = .scCol ∧ byteTrace b [0x02#8, row] = [])

/-- R88: PRINT, at every declared length: 0 prints the empty text, 16 and above print 16 bytes. -/
def Obligations.PrintIssuesItsText : Prop :=
  ∀ (declared : Byte) (text : List Byte), text.length = min declared.toNat 16 →
    (∀ rest, decode (0x03#8 :: declared :: (text ++ rest)) = .ok (.print declared text, rest)) ∧
    (∀ s : State, ∃ t : State, exec (.print declared text) s = .next t ∧ t = { s with blk := t.blk } ∧
      t.blk = { s.blk with tag := 0x03#8, len := t.blk.len, cnt := t.blk.len, text := t.blk.text, op := 3, st := .issue } ∧
      t.blk.len.toNat = min declared.toNat 16 ∧
      (∀ j, j < text.length → t.blk.text[j]? = text[j]?) ∧
      (∀ j, text.length ≤ j → t.blk.text[j]? = s.blk.text[j]?) ∧
      t.blk.presented = some (.print text)) ∧
    (∀ b : Block, b.st = .awaitTag →
      byteTrace b (0x03#8 :: declared :: text) = [.print text] ∧
      (byteRun b (0x03#8 :: declared :: text)).st = .awaitTag ∧
      (byteRun b [0x03#8]).st = .prLen ∧
      (∀ front back, text = front ++ back → back ≠ [] →
        (byteRun b (0x03#8 :: declared :: front)).st = .prText ∧ byteTrace b (0x03#8 :: declared :: front) = []))

/-- R89: PRINT_GLYPH, at every index. -/
def Obligations.PrintGlyphIssuesItsIndex : Prop :=
  ∀ index : Byte,
    (∀ rest, decode (0x04#8 :: index :: rest) = .ok (.printGlyph index, rest)) ∧
    (∀ s : State, exec (.printGlyph index) s =
      .next { s with blk := { s.blk with tag := 0x04#8, gidx := index, op := 4, st := .issue } }) ∧
    (∀ s t : State, exec (.printGlyph index) s = .next t → t.blk.presented = some (.printGlyph index)) ∧
    (∀ b : Block, b.st = .awaitTag →
      byteTrace b [0x04#8, index] = [.printGlyph index] ∧
      byteRun b [0x04#8, index] = { b with tag := 0x04#8, gidx := index } ∧
      (byteRun b [0x04#8]).st = .pgIdx ∧ byteTrace b [0x04#8] = [])

/-- R90: CREATE_GLYPH, at every index and every bitmap byte. -/
def Obligations.CreateGlyphIssuesItsBitmap : Prop :=
  ∀ (index : Byte) (bitmap : Vector Byte bitmapLen),
    (∀ rest, decode (0x05#8 :: index :: (bitmap.toList ++ rest)) = .ok (.createGlyph index bitmap, rest)) ∧
    (∀ s : State, exec (.createGlyph index bitmap) s =
      .next { s with blk := { s.blk with tag := 0x05#8, gidx := index, cnt := 8, bmp := bitmap, op := 5, st := .issue } }) ∧
    (∀ s t : State, exec (.createGlyph index bitmap) s = .next t →
      t.blk.presented = some (.defineGlyph index bitmap)) ∧
    (∀ b : Block, b.st = .awaitTag →
      byteTrace b (0x05#8 :: index :: bitmap.toList) = [.defineGlyph index bitmap] ∧
      byteRun b (0x05#8 :: index :: bitmap.toList) = { b with tag := 0x05#8, gidx := index, cnt := 8, bmp := bitmap } ∧
      (byteRun b [0x05#8]).st = .cgIdx ∧
      (∀ front back, bitmap.toList = front ++ back → back ≠ [] →
        (byteRun b (0x05#8 :: index :: front)).st = .cgBmp ∧ byteTrace b (0x05#8 :: index :: front) = []))

/-- R91: UNKNOWN, at every tag from 0x06 to 0xFF. -/
def Obligations.UnknownIssuesErrorReport : Prop :=
  ∀ tag : Byte, 6 ≤ tag.toNat →
    (∀ rest, decode (tag :: rest) = .ok (.unknown tag, rest)) ∧
    (∀ s : State, exec (.unknown tag) s = .next { s with blk := { s.blk with tag := tag, op := 6, st := .issue } }) ∧
    (∀ s t : State, exec (.unknown tag) s = .next t → t.blk.presented = some (.errorReport tag)) ∧
    (∀ b : Block, b.st = .awaitTag → byteStep b tag = ({ b with tag := tag }, some (.errorReport tag)) ∧
      ∀ more, byteTrace b (tag :: more) = .errorReport tag :: byteTrace b more)

/-! ## Frames -/

/-- Running a packet touches the block only: the byte source, the plan, the observations and the overrun count stay
as they were (R13, R46). -/
def Obligations.ExecLeavesSurroundingsAlone : Prop :=
  ∀ (i : Instr) (s t : State), exec i s = .next t →
    t.rx = s.rx ∧ t.sched = s.sched ∧ t.levels = s.levels ∧ t.consumed = s.consumed ∧ t.trace = s.trace ∧
    t.overruns = s.overruns

/-- Which packets write which registers (the lines "Registers written" of R85-R91): every other register keeps its
value, and so does every element of the two buffers outside the bytes the packet stores. -/
def Obligations.ExecWritesOnlyItsRegisters : Prop :=
  ∀ (i : Instr) (s t : State), i.wf = true → exec i s = .next t →
    ((∀ row col, i ≠ .setCursor row col) → t.blk.row = s.blk.row ∧ t.blk.col = s.blk.col) ∧
    ((∀ index, i ≠ .printGlyph index) → (∀ index bitmap, i ≠ .createGlyph index bitmap) → t.blk.gidx = s.blk.gidx) ∧
    ((∀ declared text, i ≠ .print declared text) → t.blk.len = s.blk.len ∧ ∀ j : Nat, t.blk.text[j]? = s.blk.text[j]?) ∧
    (∀ declared text, i = .print declared text →
      ∀ j, min declared.toNat 16 ≤ j → t.blk.text[j]? = s.blk.text[j]?) ∧
    ((∀ declared text, i ≠ .print declared text) → (∀ index bitmap, i ≠ .createGlyph index bitmap) →
      t.blk.cnt = s.blk.cnt) ∧
    ((∀ index bitmap, i ≠ .createGlyph index bitmap) → ∀ j : Nat, t.blk.bmp[j]? = s.blk.bmp[j]?) ∧
    (i = .idle → t.blk.op = s.blk.op)

/-- R38: nothing is cleared between packets: the completion of a command leaves every register but `ST`, waiting for
the next packet leaves every one, and the next tag leaves all but `TAG`, `ST` and `OP`; the rule's example of stale
text. -/
def Obligations.NothingIsClearedBetweenPackets : Prop :=
  (∀ s : State, s.blk.st = .issue → (s.edgeAt 0).pins.rst = false → (s.edgeAt 0).pins.cmdReady = true →
    s.clock.blk = { s.blk with st := .awaitTag }) ∧
  (∀ (b : Block) (x : Byte), b.st = .awaitTag →
    (b.acceptByte x) = { b with tag := (b.acceptByte x).tag, st := (b.acceptByte x).st, op := (b.acceptByte x).op }) ∧
  (∀ (b : Block) (i : Inputs), b.st = .awaitTag → i.rst = false → i.rx = none → b.clockEdge i = b) ∧
  (∀ (b : Block) (x y z w : Byte), b.st = .awaitTag →
    ∀ after : Block, after = byteRun b [0x03#8, 0x03#8, x, y, z, 0x03#8, 0x01#8, w] →
      after.text[0]? = some w ∧ after.text[1]? = some y ∧ after.text[2]? = some z ∧ after.len = 1)

/-! ## The circuit -/

/-- R78: which of the four cases an edge takes, tested in the rule's order, and the codes of the commands. -/
def Obligations.ClockEdgeTakesTheFirstCase : Prop :=
  ∀ (b : Block) (i : Inputs),
    (i.rst = true → b.clockEdge i = Block.reset) ∧
    (i.rst = false → b.st ≠ .issue → ∀ x, i.rx = some x →
      ((byteStep b x).2 = none → b.clockEdge i = (byteStep b x).1) ∧
      (∀ c, (byteStep b x).2 = some c → (byteStep b x).1.st = .awaitTag ∧
        b.clockEdge i = { (byteStep b x).1 with op := c.code, st := .issue })) ∧
    (i.rst = false → b.st ≠ .issue → i.rx = none → b.clockEdge i = b) ∧
    (i.rst = false → b.st = .issue → i.cmdReady = true → b.clockEdge i = { b with st := .awaitTag }) ∧
    (i.rst = false → b.st = .issue → i.cmdReady = false → b.clockEdge i = b) ∧
    Cmd.clear.code = 1 ∧ (∀ row col, (Cmd.setCursor row col).code = 2) ∧ (∀ text, (Cmd.print text).code = 3) ∧
    (∀ index, (Cmd.printGlyph index).code = 4) ∧ (∀ index bitmap, (Cmd.defineGlyph index bitmap).code = 5) ∧
    (∀ tag, (Cmd.errorReport tag).code = 6)

/-- R79: `rx_ready` is 1 exactly outside `ISSUE`, and no byte is consumed while a command is pending, whatever is
offered: the byte offered stays with the source (R27). -/
def Obligations.NoByteIsTakenWhileIssuing : Prop :=
  (∀ b : Block, b.rxReady = true ↔ b.st ≠ .issue) ∧
  (∀ (b : Block) (i : Inputs), b.st = .issue → b.byteBeat i = none) ∧
  (∀ s : State, s.blk.st = .issue →
    ((s.edgeAt 0).pins.rst = false → s.clock.consumed = s.consumed) ∧
    ∀ x, s.rx.head? = some x → s.clock.rx.head? = some x)

/-- R81: `cmd_valid` is 0 outside `ISSUE`; `cmd_ready` is ignored outside `ISSUE`, and the byte port inside it. -/
def Obligations.PortsAreIgnoredOutsideTheirStates : Prop :=
  ∀ (b : Block) (i j : Inputs), i.rst = j.rst →
    (b.st ≠ .issue → b.cmdValid = false) ∧
    (b.st ≠ .issue → i.rx = j.rx → b.clockEdge i = b.clockEdge j ∧ b.byteBeat i = b.byteBeat j ∧
      b.commandBeat i = false) ∧
    (b.st = .issue → i.cmdReady = j.cmdReady → b.clockEdge i = b.clockEdge j ∧ b.commandBeat i = b.commandBeat j ∧
      b.byteBeat i = none)

/-- R83: an edge with `rst = 0` and no beat changes nothing, so every change of the block is a byte beat, a command
beat or a reset. -/
def Obligations.EdgeWithoutBeatChangesNothing : Prop :=
  (∀ (b : Block) (i : Inputs), i.rst = false → b.byteBeat i = none → b.commandBeat i = false → b.clockEdge i = b) ∧
  (∀ (b : Block) (i : Inputs), i.rst = false → (b.st ≠ .issue ∧ i.rx = none) ∨ (b.st = .issue ∧ i.cmdReady = false) →
    b.clockEdge i = b) ∧
  (∀ (b : Block) (i : Inputs), b.clockEdge i ≠ b → i.rst = true ∨ b.byteBeat i ≠ none ∨ b.commandBeat i = true) ∧
  (∀ (b : Block) (i : Inputs) (x : Byte), b.byteBeat i = some x → b.clockEdge i = b.acceptByte x)

/-- R32: what the port presents for each code, from the valid fields alone. -/
def Obligations.PortPresentsTheCodedCommand : Prop :=
  ∀ b : Block, b.Inv → b.st = .issue →
    b.commandPort.cmdValid = true ∧ b.commandPort.cmdOp = b.op ∧
    (b.op = 1 → b.presented = some .clear) ∧
    (b.op = 2 → b.presented = some (.setCursor b.commandPort.cmdRow b.commandPort.cmdCol)) ∧
    (b.op = 3 → b.presented = some (.print (b.commandPort.cmdText.toList.take b.commandPort.cmdLen.toNat))) ∧
    (b.op = 4 → b.presented = some (.printGlyph b.commandPort.cmdIndex)) ∧
    (b.op = 5 → b.presented = some (.defineGlyph b.commandPort.cmdIndex b.commandPort.cmdBitmap)) ∧
    (b.op = 6 → b.presented = some (.errorReport b.commandPort.cmdTag)) ∧
    b.op ≠ 0 ∧ b.op ≠ 7

/-- R31: the idle packet issues nothing, a packet's command has the packet's tag as its code for tags 1 to 5 and code 6
for the unknown tags, and codes 0 and 7 belong to no command and are never on a valid port. -/
def Obligations.CommandCodesAreTheTable : Prop :=
  (∀ c : Cmd, c.code ≠ 0 ∧ c.code ≠ 7) ∧
  (∀ (i : Instr) (c : Cmd), i.wf = true → packetCommand i = some c →
    ∃ tag payload, encode i = tag :: payload ∧
      (tag.toNat ≤ 5 → c.code.toNat = tag.toNat) ∧ (6 ≤ tag.toNat → c.code = 6)) ∧
  packetCommand .idle = none ∧
  (∀ b : Block, b.Inv → b.commandPort.cmdValid = true → b.commandPort.cmdOp ≠ 0 ∧ b.commandPort.cmdOp ≠ 7)

/-- R80: in `ISSUE` the port presents exactly the command the step put out, holds it unchanged while the driver is not
ready, and on the command beat goes to `AWAIT_TAG`, changes no other register, and the command joins the trace. -/
def Obligations.IssuePresentsHoldsAndCompletes : Prop :=
  (∀ (b : Block) (x : Byte) (c : Cmd), b.Inv → b.st ≠ .issue → (byteStep b x).2 = some c →
    (b.acceptByte x).commandPort.cmdValid = true ∧ (b.acceptByte x).commandPort.cmdOp = c.code ∧
    (b.acceptByte x).presented = some c) ∧
  (∀ s : State, s.blk.st = .issue → (s.edgeAt 0).pins.rst = false →
    ((s.edgeAt 0).pins.cmdReady = false → s.clock.blk.commandPort = s.blk.commandPort ∧ s.clock.trace = s.trace) ∧
    ((s.edgeAt 0).pins.cmdReady = true → s.clock.blk = { s.blk with st := .awaitTag } ∧
      s.clock.trace = s.trace ++ s.blk.presented.toList))

/-- R82, R97: a command beat and a byte beat never fall on one edge, and reset excludes both. -/
def Obligations.BeatsAreExclusive : Prop :=
  ∀ (b : Block) (i : Inputs),
    (b.commandBeat i = true → b.byteBeat i = none) ∧
    (i.rst = true → b.byteBeat i = none ∧ b.commandBeat i = false ∧ b.clockEdge i = Block.reset) ∧
    ¬ (b.rxReady = true ∧ b.cmdValid = true)

/-- R76: while no byte is offered the machine waits, in `AWAIT_TAG` and in every payload state alike, for however many
edges: no timeout. -/
def Obligations.WaitingForAByteChangesNothing : Prop :=
  ∀ (n : Nat) (s : State), s.blk.st ≠ .issue →
    (∀ k, k < n → (s.clocks k).inputs.rst = false ∧ (s.clocks k).inputs.rx = none) →
    (s.clocks n).blk = s.blk ∧ (s.clocks n).trace = s.trace ∧ (s.clocks n).consumed = s.consumed

/-- R98: with the byte source empty and nothing arriving, a block inside a packet waits forever: no command, no error,
no timeout; a reset does leave the state; a byte offered later is taken as the pending packet's next, and the bytes
that were missing complete it. -/
def Obligations.TransportStallIsAWait : Prop :=
  (∀ (n : Nat) (s : State), s.blk.st ≠ .issue → s.rx = [] → s.undisturbed →
    (s.clocks n).blk = s.blk ∧ (s.clocks n).trace = s.trace) ∧
  (∀ (b : Block) (x : Byte), b.Inv → b.st ≠ .awaitTag → b.st ≠ .issue →
    b.clockEdge { rst := false, rx := some x, cmdReady := false } = b.acceptByte x ∧ (b.acceptByte x).tag = b.tag) ∧
  (∀ s : State, (s.edgeAt 0).pins.rst = true → s.clock.blk = Block.reset) ∧
  (∀ (b : Block) (i : Instr) (front back : List Byte), b.st = .awaitTag → i.wf = true → encode i = front ++ back →
    front ≠ [] → back ≠ [] →
    byteTrace b front = [] ∧ byteTrace (byteRun b front) back = (packetCommand i).toList)

/-- R99: a driver that never completes keeps the block in `ISSUE`, with every output held (R33) and no byte consumed,
for however many edges. -/
def Obligations.DriverStallIsAWait : Prop :=
  ∀ (n : Nat) (s : State), s.blk.st = .issue →
    (∀ k, k < n → (s.edgeAt k).pins.rst = false ∧ (s.edgeAt k).pins.cmdReady = false) →
    (s.clocks n).blk = s.blk ∧ (s.clocks n).blk.commandPort = s.blk.commandPort ∧
    (s.clocks n).trace = s.trace ∧ (s.clocks n).consumed = s.consumed

/-- R105: a reset edge puts every register at its reset value; no byte is consumed and no command completes, whatever
the other pins; the outputs follow, and the byte offered stays with the source. -/
def Obligations.ResetEdgeResetsEverything : Prop :=
  ∀ s : State, (s.edgeAt 0).pins.rst = true →
    s.clock.blk.st = .awaitTag ∧ s.clock.blk.op = 0 ∧
    s.clock.blk.tag = 0 ∧ s.clock.blk.row = 0 ∧ s.clock.blk.col = 0 ∧ s.clock.blk.gidx = 0 ∧
    s.clock.blk.len = 0 ∧ s.clock.blk.cnt = 0 ∧
    (∀ j, j < 16 → s.clock.blk.text[j]? = some 0) ∧ (∀ j, j < 8 → s.clock.blk.bmp[j]? = some 0) ∧
    s.blk.byteBeat s.inputs = none ∧ s.blk.commandBeat s.inputs = false ∧
    (∀ x, s.rx.head? = some x → s.clock.rx.head? = some x) ∧
    s.clock.blk.rxReady = true ∧ s.clock.blk.cmdValid = false

/-- The machine after reset: the block at the values of R35, nothing consumed or completed; and a reset edge keeps what
has been consumed and completed before it. (That the two histories begin empty and are kept across resets is the
model's reading, log 5; the byte source empty and the pin levels are the model's choice, log 3, and are not stated
here.) -/
def Obligations.ResetStateIsAsTheRuleLists : Prop :=
  State.reset.blk.st = .awaitTag ∧ State.reset.blk.op = 0 ∧ State.reset.blk.tag = 0x00#8 ∧
  State.reset.blk.row = 0x00#8 ∧ State.reset.blk.col = 0x00#8 ∧ State.reset.blk.gidx = 0x00#8 ∧
  State.reset.blk.len = 0 ∧ State.reset.blk.cnt = 0 ∧
  State.reset.blk.text.toList = List.replicate 16 0x00#8 ∧ State.reset.blk.bmp.toList = List.replicate 8 0x00#8 ∧
  State.reset.blk.cmdValid = false ∧ State.reset.blk.rxReady = true ∧
  State.reset.consumed = 0 ∧ State.reset.trace = [] ∧
  (∀ s : State, (s.edgeAt 0).pins.rst = true → s.clock.consumed = s.consumed ∧ s.clock.trace = s.trace)

/-- R107: a reset inside a packet discards the bytes consumed, puts out nothing for them, and the next byte is taken as
a tag, exactly as after reset. -/
def Obligations.ResetMidPacketDiscardsIt : Prop :=
  ∀ (s : State) (x : Byte), s.blk.st ≠ .issue → s.blk.st ≠ .awaitTag → (s.edgeAt 0).pins.rst = true →
    s.clock.trace = s.trace ∧ s.clock.consumed = s.consumed ∧
    s.clock.blk.clockEdge { rst := false, rx := some x, cmdReady := false } = Block.reset.acceptByte x ∧
    (s.clock.blk.acceptByte x).tag = x

/-- R108: a reset in `ISSUE` abandons the pending command: `cmd_valid` falls without a command beat, even if the driver
is ready at that edge, and the command is not in the trace. -/
def Obligations.ResetInIssueAbandonsTheCommand : Prop :=
  ∀ s : State, s.blk.st = .issue → (s.edgeAt 0).pins.rst = true →
    s.blk.cmdValid = true ∧ s.clock.blk.cmdValid = false ∧ s.blk.commandBeat s.inputs = false ∧
    s.clock.trace = s.trace

/-! ## The exception -/

/-- R93: exactly a tag byte in 0x06..0xFF in `AWAIT_TAG` raises the error; its code is the tag, kept in `TAG` and
presented as `cmd_tag`; nothing else is recorded, and it is not fatal: the byte level awaits the next tag. -/
def Obligations.OnlyUnknownTagsRaiseTheError : Prop :=
  ∀ (b : Block) (x t : Byte), b.st ≠ .issue →
    ((byteStep b x).2 = some (.errorReport t) ↔ b.st = .awaitTag ∧ x = t ∧ 6 ≤ t.toNat) ∧
    ((byteStep b x).2 = some (.errorReport t) →
      (b.acceptByte x).tag = t ∧ (b.acceptByte x).commandPort.cmdTag = t ∧ (b.acceptByte x).commandPort.cmdOp = 6 ∧
      (byteStep b x).1 = { b with tag := t, st := .awaitTag })

/-- R94: entry. The tag is in `TAG`, the report is issued with `OP = 6`, `ST` is `AWAIT_TAG` at byte level and `ISSUE`
at cycle level; nothing else changes, and nothing is saved. It is precise: no earlier command is pending at entry, and
no byte is consumed before the report completes. -/
def Obligations.ErrorEntrySavesNothing : Prop :=
  ∀ (b : Block) (t : Byte), b.st = .awaitTag → 6 ≤ t.toNat →
    byteStep b t = ({ b with tag := t, st := .awaitTag }, some (.errorReport t)) ∧
    b.clockEdge { rst := false, rx := some t, cmdReady := false } = { b with tag := t, op := 6, st := .issue } ∧
    b.raiseDecodeError t = { b with tag := t, op := 6, st := .issue } ∧
    (b.raiseDecodeError t).returnFromDecodeError = { b with tag := t, op := 6, st := .awaitTag } ∧
    b.presented = none ∧
    (∀ i : Inputs, (b.raiseDecodeError t).byteBeat i = none)

/-- R95, R96: after a report completes the block is in `AWAIT_TAG`, and the stream goes on as if it began there; no
byte, so no error, is taken while a report is pending; consecutive unknown tags give one report each, in order. -/
def Obligations.ErrorsAreReportedOneByOne : Prop :=
  (∀ (b : Block) (i : Inputs), b.st = .issue → b.byteBeat i = none) ∧
  (∀ s : State, s.blk.st = .issue → s.blk.op = 6 → (s.edgeAt 0).pins.rst = false → (s.edgeAt 0).pins.cmdReady = true →
    s.clock.blk.st = .awaitTag ∧ s.clock.trace = s.trace ++ [.errorReport s.blk.tag]) ∧
  (∀ (b : Block) (tags more : List Byte), b.st = .awaitTag → (∀ t ∈ tags, 6 ≤ t.toNat) →
    byteTrace b (tags ++ more) = tags.map Cmd.errorReport ++ byteTrace b more)

/-! ## Steps -/

/-- When the bytes the port will carry back to back begin with a packet, the step is that packet's meaning, after its
bytes have been consumed at as many edges (R71, R75). That one step runs a whole packet is the model's choice, log 1. -/
def Obligations.StepRunsTheDecodedInstruction : Prop :=
  ∀ (s : State) (i : Instr) (rest : List Byte), s.blk.st = .awaitTag → decode s.burst = .ok (i, rest) →
    step s = exec i { s with consumed := s.consumed + i.length, rx := s.rx.drop i.length,
                             sched := s.sched.drop i.length }

/-- A whole well-formed packet at the head of the byte source, offered without a gap, is fetched and run by the next
step (R71, R74); the size of a step is the model's choice, log 1. -/
def Obligations.StepRunsAPacketOfferedWithoutGaps : Prop :=
  ∀ (s : State) (i : Instr) (rest : List Byte), s.blk.st = .awaitTag → i.wf = true → s.rx = encode i ++ rest →
    (∀ k, k < i.length → (s.edgeAt k).pins.rst = false ∧ (s.edgeAt k).pins.offers = true ∧
      (s.edgeAt k).arrival = none) →
    step s = exec i { s with consumed := s.consumed + (encode i).length, rx := rest,
                             sched := s.sched.drop (encode i).length }

/-- A word of the opcode table placed for the next step is run by it, whatever the state (log 4). -/
def Obligations.PlacedWordIsRunByTheNextStep : Prop :=
  ∀ (s : State) (nbits w : Nat) (i : Instr), decodeTableWord nbits w = some i →
    step (s.withFetchWord nbits w) = exec i ((s.withFetchWord nbits w).consume i.length)

/-- Every step that runs no whole packet is one rising edge (R78): inside a packet, in `ISSUE`, with no byte held, at
an edge with a reset, with nothing offered or with a byte arriving, and where the bytes that the port carries back to
back are no whole packet; among these, the case that the tag and perhaps more of a packet streams but a later byte is
missing, or comes only after a gap, a reset or an arrival. The size of a step is the model's choice, log 1. -/
def Obligations.OtherStepsAreOneEdge : Prop :=
  (∀ s : State,
    (s.blk.st ≠ .awaitTag ∨ s.rx = [] ∨ (s.edgeAt 0).pins.rst = true ∨ (s.edgeAt 0).pins.offers = false ∨
      (s.edgeAt 0).arrival ≠ none ∨ ∃ e, decode s.burst = .error e) → step s = .next s.clock) ∧
  (∀ (s : State) (i : Instr) (front back more : List Byte), i.wf = true → encode i = front ++ back → back ≠ [] →
    s.rx = front ++ more →
    (∀ k, k < front.length → (s.edgeAt k).pins.rst = false ∧ (s.edgeAt k).pins.offers = true ∧
      (s.edgeAt k).arrival = none) →
    (more = [] ∨ (s.edgeAt front.length).pins.rst = true ∨ (s.edgeAt front.length).pins.offers = false ∨
      (s.edgeAt front.length).arrival ≠ none) → step s = .next s.clock)

/-- Every step is a run of clock edges, at least one and at most the 18 of the longest packet: the machine has no
step that the circuit lacks, and it never stops: a stall is a wait, not a fault (R78, R83, R98, R99). That a step may
take more than one edge, and up to 18, is the model's choice, log 1. -/
def Obligations.StepIsARunOfEdges : Prop :=
  ∀ s : State, ∃ n, 1 ≤ n ∧ n ≤ 18 ∧ step s = .next (s.clocks n)

/-- A packet's meaning is what the circuit does with its bytes one at a time (R71, R73, R78). -/
def Obligations.ExecIsItsBytesOneByOne : Prop :=
  ∀ (i : Instr) (s : State), i.wf = true → s.blk.st = .awaitTag →
    exec i s = .next { s with blk := (encode i).foldl Block.acceptByte s.blk }

/-- Every step keeps the invariant: the bounds of `LEN` and `CNT` (R19, R20, R73), `TAG` inside a packet (R15), and `OP`
in `ISSUE` (R31). -/
def Obligations.StepKeepsTheInvariant : Prop :=
  ∀ s t : State, s.Inv → step s = .next t → t.Inv

/-- The invariant holds after reset, and a reset edge establishes it from any state whatever, so that the state before
the first reset needs no premise (R105, R109). -/
def Obligations.ResetMeetsTheInvariant : Prop :=
  State.reset.Inv ∧ ∀ s : State, (s.edgeAt 0).pins.rst = true → ∃ t, step s = .next t ∧ t.Inv

/-! ## Agreement of the two levels, and progress -/

/-- R84: for every byte stream, every pattern of offers and every pattern of `cmd_ready`, from reset with no later
reset: the commands completed are a prefix of the byte-level trace, the bytes consumed are as many as the steps at byte
level, and outside `ISSUE` the registers are the byte level's. If every pending command is eventually completed by the
driver and every byte not yet consumed eventually offered, every prefix of the trace is eventually completed. -/
def Obligations.CircuitAgreesWithByteLevel : Prop :=
  ∀ (bs : List Byte) (sched : List Edge) (levels : Pins), (State.fed bs sched levels).undisturbed →
    (∀ n : Nat,
      let s := (State.fed bs sched levels).clocks n
      s.trace <+: byteTrace Block.reset bs ∧
      s.consumed ≤ bs.length ∧ s.rx = bs.drop s.consumed ∧
      s.trace ++ s.blk.presented.toList = byteTrace Block.reset (bs.take s.consumed) ∧
      (s.blk.st ≠ .issue → { s.blk with op := 0 } = byteRun Block.reset (bs.take s.consumed))) ∧
    ((∀ n, ((State.fed bs sched levels).clocks n).blk.st = .issue →
        ∃ k, n ≤ k ∧ ((State.fed bs sched levels).edgeAt k).pins.cmdReady = true) →
      (∀ n, ((State.fed bs sched levels).clocks n).blk.st ≠ .issue → ((State.fed bs sched levels).clocks n).rx ≠ [] →
        ∃ k, n ≤ k ∧ ((State.fed bs sched levels).edgeAt k).pins.offers = true) →
      ∀ front, front <+: byteTrace Block.reset bs →
        ∃ n, front <+: ((State.fed bs sched levels).clocks n).trace)

/-- Progress with a bound: if among any `d + 1` edges in a row at least one offers and at least one has the driver
ready, every command of the stream has completed within `2 (d + 1)` edges a byte (R84, R119). -/
def Obligations.FairEnvironmentCompletesWithinABound : Prop :=
  ∀ (bs : List Byte) (sched : List Edge) (levels : Pins) (d : Nat), (State.fed bs sched levels).undisturbed →
    (∀ k, ∃ j, j ≤ d ∧ ((State.fed bs sched levels).edgeAt (k + j)).pins.offers = true) →
    (∀ k, ∃ j, j ≤ d ∧ ((State.fed bs sched levels).edgeAt (k + j)).pins.cmdReady = true) →
    ∃ n, n ≤ 2 * (d + 1) * bs.length ∧
      ((State.fed bs sched levels).clocks n).trace = byteTrace Block.reset bs ∧
      ((State.fed bs sched levels).clocks n).consumed = bs.length

/-- A packet of `n` bytes offered at consecutive edges, with the driver ready at the `d`-th edge in `ISSUE`, occupies
`n + d` edges from its tag beat to its command beat (R117). -/
def Obligations.PacketOccupiesLengthPlusLatency : Prop :=
  ∀ (s : State) (i : Instr) (c : Cmd) (rest : List Byte) (d : Nat),
    i.wf = true → packetCommand i = some c → 1 ≤ d → s.blk.st = .awaitTag → s.rx = encode i ++ rest →
    (∀ k, k < i.length → (s.edgeAt k).pins.rst = false ∧ (s.edgeAt k).pins.offers = true) →
    (∀ k, i.length ≤ k → k < i.length + d →
      (s.edgeAt k).pins.rst = false ∧ (s.edgeAt k).pins.cmdReady = decide (k + 1 = i.length + d)) →
    (s.clocks (i.length + d)).blk.st = .awaitTag ∧
    (s.clocks (i.length + d)).trace = s.trace ++ [c] ∧
    (s.clocks (i.length + d)).consumed = s.consumed + i.length ∧
    (∀ m, m < i.length + d → (s.clocks m).trace = s.trace)

/-! ## The agents around the block -/

/-- A byte from the line is held by a byte source with room, behind the bytes it holds; at a full source it is held or
lost, and nothing else (R115, I10); at an edge with a reset or a pending command every byte held stays. When a source
is full, and that the bytes held survive an overrun, is the model's choice, log 10; that arrivals are held at reset
edges too and a reset does not empty the source is the model's choice, log 11. The block does not see arrivals. -/
def Obligations.ArrivalIsHeldOrLost : Prop :=
  (∀ (s : State) (x : Byte), (s.edgeAt 0).arrival = some x →
    (s.rx.length ≤ Config.rxFifoDepth → s.clock.rx = s.rxAfterBeat ++ [x] ∧ s.clock.overruns = s.overruns) ∧
    (Config.rxFifoDepth < s.rx.length →
      (s.clock.rx = s.rxAfterBeat ++ [x] ∨ s.clock.rx = s.rxAfterBeat) ∧ s.clock.overruns = s.overruns + 1)) ∧
  (∀ s : State, ((s.edgeAt 0).pins.rst = true ∨ s.blk.st = .issue) → ∃ more, s.clock.rx = s.rx ++ more) ∧
  (∀ (s : State) (pins : Pins) (x y : Option Byte) (later : List Edge),
    (State.clock { s with sched := ⟨pins, x⟩ :: later }).blk = (State.clock { s with sched := ⟨pins, y⟩ :: later }).blk ∧
    (State.clock { s with sched := ⟨pins, x⟩ :: later }).trace =
      (State.clock { s with sched := ⟨pins, y⟩ :: later }).trace)

/-- Of the bytes sent before reset has finished, each is lost or offered after it, in order, and the block is as reset
leaves it (R110, I11; that the fate is per byte is the model's choice, log 12). -/
def Obligations.EarlyBytesAreOfferedOrLost : Prop :=
  ∀ early : List Byte, (State.boot early).rx.Sublist early ∧
    { State.boot early with rx := [] } = State.reset

/-- R64: `send_print` truncates to 16 bytes, and the block prints exactly those. -/
def Obligations.SendPrintTruncatesToSixteen : Prop :=
  ∀ message : List Byte, ∃ n : Byte, n.toNat = min message.length 16 ∧
    sendPrint message = [0x03#8, n] ++ message.take 16 ∧
    ∀ b : Block, b.st = .awaitTag → byteTrace b (sendPrint message) = [.print (message.take 16)]

/-- R66: the index of `send_create_glyph` saturates at 7, and a negative one is refused. -/
def Obligations.SendCreateGlyphClampsItsIndex : Prop :=
  (∀ (index : Nat) (text : List Char) (m : List Byte), hexBitmap text = some m →
    sendCreateGlyph index text = .ok ([0x05#8, BitVec.ofNat 8 (min index 7)] ++ m)) ∧
  (∀ (index : Int) (text : List Char), index < 0 → sendCreateGlyph index text = .error .operandRefused)

/-- R67, whole: the text is split at runs of white space with empty tokens dropped; the digits; `HexByte` on its three
kinds of tokens; and the bitmap exists exactly if each of the first 8 tokens has a byte, has then 8 bytes, those of the
tokens in order and 0 for the missing ones, and ignores tokens after the eighth. (Which characters are white space, that
a to f are digits, and that a token without a byte refuses the whole bitmap are log 13's.) -/
def Obligations.HexBitmapPadsAndIgnores : Prop :=
  (∀ c : Char, isSeparator c = true ↔ c.toNat = 32 ∨ (9 ≤ c.toNat ∧ c.toNat ≤ 13)) ∧
  splitTokens [] [] = [] ∧
  (∀ (c : Char) (text : List Char), isSeparator c = true → splitTokens [] (c :: text) = splitTokens [] text) ∧
  (∀ tok : List Char, tok ≠ [] → (∀ c ∈ tok, isSeparator c = false) →
    splitTokens [] tok = [tok] ∧
    ∀ (c : Char) (text : List Char), isSeparator c = true →
      splitTokens [] (tok ++ c :: text) = tok :: splitTokens [] text) ∧
  (∀ (c : Char) (d : Nat), hexDigit c = some d ↔
    "0123456789ABCDEF".toList[d]? = some c ∨ "0123456789abcdef".toList[d]? = some c) ∧
  (∀ (c : Char) (d : Nat), hexDigit c = some d → hexByte [c] = some (BitVec.ofNat 8 d)) ∧
  (∀ (c c' : Char) (d e : Nat), hexDigit c = some d → hexDigit c' = some e →
    hexByte [c, c'] = some (BitVec.ofNat 8 (16 * d + e))) ∧
  (∀ tok : List Char, (∀ c ∈ tok, hexDigit c = none) → hexByte tok = some 0) ∧
  (∀ tok : List Char, (∃ c ∈ tok, hexDigit c ≠ none) → (2 < tok.length ∨ ∃ c ∈ tok, hexDigit c = none) →
    hexByte tok = Config.hexTokenEdge tok) ∧
  (∀ text : List Char,
    (∃ m, hexBitmap text = some m) ↔ ∀ tok ∈ (splitTokens [] text).take 8, ∃ x, hexByte tok = some x) ∧
  (∀ (text : List Char) (m : List Byte), hexBitmap text = some m → m.length = 8 ∧
    ∀ k, k < 8 → ∀ x, m[k]? = some x →
      (∀ tok, (splitTokens [] text)[k]? = some tok → hexByte tok = some x) ∧
      ((splitTokens [] text).length ≤ k → x = 0))

/-- R63, R65: the byte operands are sent as they are, and integers outside 0..255 are refused; R68: while the transport
is not open nothing is written. -/
def Obligations.HostSendsBytesOrRefuses : Prop :=
  (∀ row col : Byte, sendSetCursor row.toNat col.toNat = .ok [0x02#8, row, col]) ∧
  (∀ index : Byte, sendGlyph index.toNat = .ok [0x04#8, index]) ∧
  (∀ row col : Int, (row < 0 ∨ 255 < row ∨ col < 0 ∨ 255 < col) → sendSetCursor row col = .error .operandRefused) ∧
  (∀ index : Int, (index < 0 ∨ 255 < index) → sendGlyph index = .error .operandRefused) ∧
  (∀ o : HostOp, o.send false = .error .configurationError) ∧
  HostOp.send true .clear = .ok [0x01#8]
end

