-- ==== Sys2Proof/Laws/Decode.lean ====
section
/-! SUPPORT. The decoder's building blocks, and the decoder on each tag class, said once. -/

namespace Sys2Proof

theorem splitExactly_append (bs rest : List Byte) : splitExactly bs.length (bs ++ rest) = some (bs, rest) := by
  simp [splitExactly]

theorem splitExactly_some {n : Nat} {bs front rest : List Byte} (h : splitExactly n bs = some (front, rest)) :
    front.length = n ∧ front ++ rest = bs := by
  unfold splitExactly at h
  split at h
  · cases h; simpa using ‹n ≤ bs.length›
  · cases h

theorem splitExactly_none {n : Nat} {bs : List Byte} : splitExactly n bs = none ↔ bs.length < n := by
  unfold splitExactly
  split <;> simp <;> omega

theorem bytesToVector_toList {n : Nat} (v : Vector Byte n) : bytesToVector n v.toList = some v := by
  have h : v.toList.length = n := by simp
  rw [bytesToVector, dif_pos h]
  exact congrArg some (Vector.toList_inj.mp (by simp [Vector.toList]))

theorem bytesToVector_some {n : Nat} {bs : List Byte} {v : Vector Byte n} (h : bytesToVector n bs = some v) :
    v.toList = bs := by
  unfold bytesToVector at h
  split at h
  · cases h; rfl
  · cases h

theorem bytesToVector_none {n : Nat} {bs : List Byte} : bytesToVector n bs = none ↔ bs.length ≠ n := by
  unfold bytesToVector
  split <;> simp_all

/-! ## The decoder by tag -/

@[simp] theorem decode_nil : decode [] = .error .noByte := rfl
@[simp] theorem decode_idle (bs : List Byte) : decode (tagIdle :: bs) = .ok (.idle, bs) := rfl
@[simp] theorem decode_clear (bs : List Byte) : decode (tagClear :: bs) = .ok (.clear, bs) := rfl
@[simp] theorem decode_setCursor (bs : List Byte) : decode (tagSetCursor :: bs) = decodeSetCursor bs := rfl
@[simp] theorem decode_print (bs : List Byte) : decode (tagPrint :: bs) = decodePrint bs := rfl
@[simp] theorem decode_printGlyph (bs : List Byte) : decode (tagPrintGlyph :: bs) = decodePrintGlyph bs := rfl
@[simp] theorem decode_createGlyph (bs : List Byte) : decode (tagCreateGlyph :: bs) = decodeCreateGlyph bs := rfl

/-- A tag from 0x06 on is none of the six named tags. -/
theorem tag_unknown {t : Byte} (h : tagCreateGlyph.toNat < t.toNat) :
    t ≠ tagIdle ∧ t ≠ tagClear ∧ t ≠ tagSetCursor ∧ t ≠ tagPrint ∧ t ≠ tagPrintGlyph ∧ t ≠ tagCreateGlyph := by
  refine ⟨?_, ?_, ?_, ?_, ?_, ?_⟩ <;> rintro rfl <;> exact absurd h (by decide)

/-- Every tag is one of the six named ones or an unknown one. -/
theorem tag_cases (t : Byte) :
    t = tagIdle ∨ t = tagClear ∨ t = tagSetCursor ∨ t = tagPrint ∨ t = tagPrintGlyph ∨ t = tagCreateGlyph ∨
      tagCreateGlyph.toNat < t.toNat := by
  have key : ∀ t : Byte, t.toNat ≤ tagCreateGlyph.toNat →
      t = tagIdle ∨ t = tagClear ∨ t = tagSetCursor ∨ t = tagPrint ∨ t = tagPrintGlyph ∨ t = tagCreateGlyph := by
    decide
  by_cases h : t.toNat ≤ tagCreateGlyph.toNat
  · rcases key t h with h | h | h | h | h | h <;> simp [h]
  · omega

theorem decode_unknown {t : Byte} (h : tagCreateGlyph.toNat < t.toNat) (bs : List Byte) :
    decode (t :: bs) = .ok (.unknown t, bs) := by
  obtain ⟨h0, h1, h2, h3, h4, h5⟩ := tag_unknown h
  simp [decode, h0, h1, h2, h3, h4, h5]

/-- The inverse of `decodePrint` (R54, R57). -/
theorem decodePrint_append (declared : Byte) (text rest : List Byte) (h : text.length = Instr.textLength declared) :
    decodePrint (declared :: (text ++ rest)) = .ok (.print declared text, rest) := by
  simp [decodePrint, ← h, splitExactly_append]

/-- The inverse of `decodeCreateGlyph` (R54). -/
theorem decodeCreateGlyph_append (index : Byte) (bitmap : Vector Byte bitmapLen) (rest : List Byte) :
    decodeCreateGlyph (index :: (bitmap.toList ++ rest)) = .ok (.createGlyph index bitmap, rest) := by
  have h : bitmap.toList.length = bitmapLen := by simp
  have htake : (bitmap.toList ++ rest).take bitmapLen = bitmap.toList := List.take_left' h
  have hdrop : (bitmap.toList ++ rest).drop bitmapLen = rest := List.drop_left' h
  simp only [decodeCreateGlyph, htake, hdrop, bytesToVector_toList]

theorem encode_ne_nil (i : Instr) : encode i ≠ [] := by cases i <;> simp [encode]

end Sys2Proof
end

