-- ==== Sys2Proof/Laws/State.lean ====
section
/-! SUPPORT. One lemma per field per update of the block and of the state around it, each true by rfl;
and that `ST`'s encoding tells its values apart. -/

namespace Sys2Proof.Machine

/-! ### `ST` and its encoding -/

/-- Different values of `ST` have different codes, whatever the encoding is (R14). -/
theorem St.encoding_inj {v w : St} : v.encoding = w.encoding ↔ v = w := by
  rw [St.encoding, St.encoding, Config.stEncoding.injective.eq_iff]
  cases v <;> cases w <;> decide

variable (b : Block) (s : State)

/-! ### `setSt` -/

@[simp] theorem Block.setSt_st (v : St) : (b.setSt v).st = v := rfl
@[simp] theorem Block.setSt_tag (v : St) : (b.setSt v).tag = b.tag := rfl
@[simp] theorem Block.setSt_row (v : St) : (b.setSt v).row = b.row := rfl
@[simp] theorem Block.setSt_col (v : St) : (b.setSt v).col = b.col := rfl
@[simp] theorem Block.setSt_gidx (v : St) : (b.setSt v).gidx = b.gidx := rfl
@[simp] theorem Block.setSt_len (v : St) : (b.setSt v).len = b.len := rfl
@[simp] theorem Block.setSt_cnt (v : St) : (b.setSt v).cnt = b.cnt := rfl
@[simp] theorem Block.setSt_text (v : St) : (b.setSt v).text = b.text := rfl
@[simp] theorem Block.setSt_bmp (v : St) : (b.setSt v).bmp = b.bmp := rfl
@[simp] theorem Block.setSt_op (v : St) : (b.setSt v).op = b.op := rfl

/-! ### `setTag` -/

@[simp] theorem Block.setTag_st (v : Byte) : (b.setTag v).st = b.st := rfl
@[simp] theorem Block.setTag_tag (v : Byte) : (b.setTag v).tag = v := rfl
@[simp] theorem Block.setTag_row (v : Byte) : (b.setTag v).row = b.row := rfl
@[simp] theorem Block.setTag_col (v : Byte) : (b.setTag v).col = b.col := rfl
@[simp] theorem Block.setTag_gidx (v : Byte) : (b.setTag v).gidx = b.gidx := rfl
@[simp] theorem Block.setTag_len (v : Byte) : (b.setTag v).len = b.len := rfl
@[simp] theorem Block.setTag_cnt (v : Byte) : (b.setTag v).cnt = b.cnt := rfl
@[simp] theorem Block.setTag_text (v : Byte) : (b.setTag v).text = b.text := rfl
@[simp] theorem Block.setTag_bmp (v : Byte) : (b.setTag v).bmp = b.bmp := rfl
@[simp] theorem Block.setTag_op (v : Byte) : (b.setTag v).op = b.op := rfl

/-! ### `setRow` -/

@[simp] theorem Block.setRow_st (v : Byte) : (b.setRow v).st = b.st := rfl
@[simp] theorem Block.setRow_tag (v : Byte) : (b.setRow v).tag = b.tag := rfl
@[simp] theorem Block.setRow_row (v : Byte) : (b.setRow v).row = v := rfl
@[simp] theorem Block.setRow_col (v : Byte) : (b.setRow v).col = b.col := rfl
@[simp] theorem Block.setRow_gidx (v : Byte) : (b.setRow v).gidx = b.gidx := rfl
@[simp] theorem Block.setRow_len (v : Byte) : (b.setRow v).len = b.len := rfl
@[simp] theorem Block.setRow_cnt (v : Byte) : (b.setRow v).cnt = b.cnt := rfl
@[simp] theorem Block.setRow_text (v : Byte) : (b.setRow v).text = b.text := rfl
@[simp] theorem Block.setRow_bmp (v : Byte) : (b.setRow v).bmp = b.bmp := rfl
@[simp] theorem Block.setRow_op (v : Byte) : (b.setRow v).op = b.op := rfl

/-! ### `setCol` -/

@[simp] theorem Block.setCol_st (v : Byte) : (b.setCol v).st = b.st := rfl
@[simp] theorem Block.setCol_tag (v : Byte) : (b.setCol v).tag = b.tag := rfl
@[simp] theorem Block.setCol_row (v : Byte) : (b.setCol v).row = b.row := rfl
@[simp] theorem Block.setCol_col (v : Byte) : (b.setCol v).col = v := rfl
@[simp] theorem Block.setCol_gidx (v : Byte) : (b.setCol v).gidx = b.gidx := rfl
@[simp] theorem Block.setCol_len (v : Byte) : (b.setCol v).len = b.len := rfl
@[simp] theorem Block.setCol_cnt (v : Byte) : (b.setCol v).cnt = b.cnt := rfl
@[simp] theorem Block.setCol_text (v : Byte) : (b.setCol v).text = b.text := rfl
@[simp] theorem Block.setCol_bmp (v : Byte) : (b.setCol v).bmp = b.bmp := rfl
@[simp] theorem Block.setCol_op (v : Byte) : (b.setCol v).op = b.op := rfl

/-! ### `setGidx` -/

@[simp] theorem Block.setGidx_st (v : Byte) : (b.setGidx v).st = b.st := rfl
@[simp] theorem Block.setGidx_tag (v : Byte) : (b.setGidx v).tag = b.tag := rfl
@[simp] theorem Block.setGidx_row (v : Byte) : (b.setGidx v).row = b.row := rfl
@[simp] theorem Block.setGidx_col (v : Byte) : (b.setGidx v).col = b.col := rfl
@[simp] theorem Block.setGidx_gidx (v : Byte) : (b.setGidx v).gidx = v := rfl
@[simp] theorem Block.setGidx_len (v : Byte) : (b.setGidx v).len = b.len := rfl
@[simp] theorem Block.setGidx_cnt (v : Byte) : (b.setGidx v).cnt = b.cnt := rfl
@[simp] theorem Block.setGidx_text (v : Byte) : (b.setGidx v).text = b.text := rfl
@[simp] theorem Block.setGidx_bmp (v : Byte) : (b.setGidx v).bmp = b.bmp := rfl
@[simp] theorem Block.setGidx_op (v : Byte) : (b.setGidx v).op = b.op := rfl

/-! ### `setLen` -/

@[simp] theorem Block.setLen_st (v : Count) : (b.setLen v).st = b.st := rfl
@[simp] theorem Block.setLen_tag (v : Count) : (b.setLen v).tag = b.tag := rfl
@[simp] theorem Block.setLen_row (v : Count) : (b.setLen v).row = b.row := rfl
@[simp] theorem Block.setLen_col (v : Count) : (b.setLen v).col = b.col := rfl
@[simp] theorem Block.setLen_gidx (v : Count) : (b.setLen v).gidx = b.gidx := rfl
@[simp] theorem Block.setLen_len (v : Count) : (b.setLen v).len = v := rfl
@[simp] theorem Block.setLen_cnt (v : Count) : (b.setLen v).cnt = b.cnt := rfl
@[simp] theorem Block.setLen_text (v : Count) : (b.setLen v).text = b.text := rfl
@[simp] theorem Block.setLen_bmp (v : Count) : (b.setLen v).bmp = b.bmp := rfl
@[simp] theorem Block.setLen_op (v : Count) : (b.setLen v).op = b.op := rfl

/-! ### `setCnt` -/

@[simp] theorem Block.setCnt_st (v : Count) : (b.setCnt v).st = b.st := rfl
@[simp] theorem Block.setCnt_tag (v : Count) : (b.setCnt v).tag = b.tag := rfl
@[simp] theorem Block.setCnt_row (v : Count) : (b.setCnt v).row = b.row := rfl
@[simp] theorem Block.setCnt_col (v : Count) : (b.setCnt v).col = b.col := rfl
@[simp] theorem Block.setCnt_gidx (v : Count) : (b.setCnt v).gidx = b.gidx := rfl
@[simp] theorem Block.setCnt_len (v : Count) : (b.setCnt v).len = b.len := rfl
@[simp] theorem Block.setCnt_cnt (v : Count) : (b.setCnt v).cnt = v := rfl
@[simp] theorem Block.setCnt_text (v : Count) : (b.setCnt v).text = b.text := rfl
@[simp] theorem Block.setCnt_bmp (v : Count) : (b.setCnt v).bmp = b.bmp := rfl
@[simp] theorem Block.setCnt_op (v : Count) : (b.setCnt v).op = b.op := rfl

/-! ### `setText` -/

@[simp] theorem Block.setText_st (v : Vector Byte maxText) : (b.setText v).st = b.st := rfl
@[simp] theorem Block.setText_tag (v : Vector Byte maxText) : (b.setText v).tag = b.tag := rfl
@[simp] theorem Block.setText_row (v : Vector Byte maxText) : (b.setText v).row = b.row := rfl
@[simp] theorem Block.setText_col (v : Vector Byte maxText) : (b.setText v).col = b.col := rfl
@[simp] theorem Block.setText_gidx (v : Vector Byte maxText) : (b.setText v).gidx = b.gidx := rfl
@[simp] theorem Block.setText_len (v : Vector Byte maxText) : (b.setText v).len = b.len := rfl
@[simp] theorem Block.setText_cnt (v : Vector Byte maxText) : (b.setText v).cnt = b.cnt := rfl
@[simp] theorem Block.setText_text (v : Vector Byte maxText) : (b.setText v).text = v := rfl
@[simp] theorem Block.setText_bmp (v : Vector Byte maxText) : (b.setText v).bmp = b.bmp := rfl
@[simp] theorem Block.setText_op (v : Vector Byte maxText) : (b.setText v).op = b.op := rfl

/-! ### `setBmp` -/

@[simp] theorem Block.setBmp_st (v : Vector Byte bitmapLen) : (b.setBmp v).st = b.st := rfl
@[simp] theorem Block.setBmp_tag (v : Vector Byte bitmapLen) : (b.setBmp v).tag = b.tag := rfl
@[simp] theorem Block.setBmp_row (v : Vector Byte bitmapLen) : (b.setBmp v).row = b.row := rfl
@[simp] theorem Block.setBmp_col (v : Vector Byte bitmapLen) : (b.setBmp v).col = b.col := rfl
@[simp] theorem Block.setBmp_gidx (v : Vector Byte bitmapLen) : (b.setBmp v).gidx = b.gidx := rfl
@[simp] theorem Block.setBmp_len (v : Vector Byte bitmapLen) : (b.setBmp v).len = b.len := rfl
@[simp] theorem Block.setBmp_cnt (v : Vector Byte bitmapLen) : (b.setBmp v).cnt = b.cnt := rfl
@[simp] theorem Block.setBmp_text (v : Vector Byte bitmapLen) : (b.setBmp v).text = b.text := rfl
@[simp] theorem Block.setBmp_bmp (v : Vector Byte bitmapLen) : (b.setBmp v).bmp = v := rfl
@[simp] theorem Block.setBmp_op (v : Vector Byte bitmapLen) : (b.setBmp v).op = b.op := rfl

/-! ### `setOp` -/

@[simp] theorem Block.setOp_st (v : OpCode) : (b.setOp v).st = b.st := rfl
@[simp] theorem Block.setOp_tag (v : OpCode) : (b.setOp v).tag = b.tag := rfl
@[simp] theorem Block.setOp_row (v : OpCode) : (b.setOp v).row = b.row := rfl
@[simp] theorem Block.setOp_col (v : OpCode) : (b.setOp v).col = b.col := rfl
@[simp] theorem Block.setOp_gidx (v : OpCode) : (b.setOp v).gidx = b.gidx := rfl
@[simp] theorem Block.setOp_len (v : OpCode) : (b.setOp v).len = b.len := rfl
@[simp] theorem Block.setOp_cnt (v : OpCode) : (b.setOp v).cnt = b.cnt := rfl
@[simp] theorem Block.setOp_text (v : OpCode) : (b.setOp v).text = b.text := rfl
@[simp] theorem Block.setOp_bmp (v : OpCode) : (b.setOp v).bmp = b.bmp := rfl
@[simp] theorem Block.setOp_op (v : OpCode) : (b.setOp v).op = v := rfl

/-! ### `writeText` -/

@[simp] theorem Block.writeText_st (i : Nat) (v : Byte) : (b.writeText i v).st = b.st := rfl
@[simp] theorem Block.writeText_tag (i : Nat) (v : Byte) : (b.writeText i v).tag = b.tag := rfl
@[simp] theorem Block.writeText_row (i : Nat) (v : Byte) : (b.writeText i v).row = b.row := rfl
@[simp] theorem Block.writeText_col (i : Nat) (v : Byte) : (b.writeText i v).col = b.col := rfl
@[simp] theorem Block.writeText_gidx (i : Nat) (v : Byte) : (b.writeText i v).gidx = b.gidx := rfl
@[simp] theorem Block.writeText_len (i : Nat) (v : Byte) : (b.writeText i v).len = b.len := rfl
@[simp] theorem Block.writeText_cnt (i : Nat) (v : Byte) : (b.writeText i v).cnt = b.cnt := rfl
@[simp] theorem Block.writeText_text (i : Nat) (v : Byte) : (b.writeText i v).text = b.text.setIfInBounds i v := rfl
@[simp] theorem Block.writeText_bmp (i : Nat) (v : Byte) : (b.writeText i v).bmp = b.bmp := rfl
@[simp] theorem Block.writeText_op (i : Nat) (v : Byte) : (b.writeText i v).op = b.op := rfl

/-! ### `writeBmp` -/

@[simp] theorem Block.writeBmp_st (i : Nat) (v : Byte) : (b.writeBmp i v).st = b.st := rfl
@[simp] theorem Block.writeBmp_tag (i : Nat) (v : Byte) : (b.writeBmp i v).tag = b.tag := rfl
@[simp] theorem Block.writeBmp_row (i : Nat) (v : Byte) : (b.writeBmp i v).row = b.row := rfl
@[simp] theorem Block.writeBmp_col (i : Nat) (v : Byte) : (b.writeBmp i v).col = b.col := rfl
@[simp] theorem Block.writeBmp_gidx (i : Nat) (v : Byte) : (b.writeBmp i v).gidx = b.gidx := rfl
@[simp] theorem Block.writeBmp_len (i : Nat) (v : Byte) : (b.writeBmp i v).len = b.len := rfl
@[simp] theorem Block.writeBmp_cnt (i : Nat) (v : Byte) : (b.writeBmp i v).cnt = b.cnt := rfl
@[simp] theorem Block.writeBmp_text (i : Nat) (v : Byte) : (b.writeBmp i v).text = b.text := rfl
@[simp] theorem Block.writeBmp_bmp (i : Nat) (v : Byte) : (b.writeBmp i v).bmp = b.bmp.setIfInBounds i v := rfl
@[simp] theorem Block.writeBmp_op (i : Nat) (v : Byte) : (b.writeBmp i v).op = b.op := rfl

/-! ### `issue`, `complete`, `raiseDecodeError` -/

@[simp] theorem Block.issue_st (c : Cmd) : (b.issue c).st = .issue := rfl
@[simp] theorem Block.issue_tag (c : Cmd) : (b.issue c).tag = b.tag := rfl
@[simp] theorem Block.issue_row (c : Cmd) : (b.issue c).row = b.row := rfl
@[simp] theorem Block.issue_col (c : Cmd) : (b.issue c).col = b.col := rfl
@[simp] theorem Block.issue_gidx (c : Cmd) : (b.issue c).gidx = b.gidx := rfl
@[simp] theorem Block.issue_len (c : Cmd) : (b.issue c).len = b.len := rfl
@[simp] theorem Block.issue_cnt (c : Cmd) : (b.issue c).cnt = b.cnt := rfl
@[simp] theorem Block.issue_text (c : Cmd) : (b.issue c).text = b.text := rfl
@[simp] theorem Block.issue_bmp (c : Cmd) : (b.issue c).bmp = b.bmp := rfl
@[simp] theorem Block.issue_op (c : Cmd) : (b.issue c).op = c.code := rfl
@[simp] theorem Block.complete_st : b.complete.st = .awaitTag := rfl
@[simp] theorem Block.complete_tag : b.complete.tag = b.tag := rfl
@[simp] theorem Block.complete_row : b.complete.row = b.row := rfl
@[simp] theorem Block.complete_col : b.complete.col = b.col := rfl
@[simp] theorem Block.complete_gidx : b.complete.gidx = b.gidx := rfl
@[simp] theorem Block.complete_len : b.complete.len = b.len := rfl
@[simp] theorem Block.complete_cnt : b.complete.cnt = b.cnt := rfl
@[simp] theorem Block.complete_text : b.complete.text = b.text := rfl
@[simp] theorem Block.complete_bmp : b.complete.bmp = b.bmp := rfl
@[simp] theorem Block.complete_op : b.complete.op = b.op := rfl
@[simp] theorem Block.raiseDecodeError_st (t : Byte) : (b.raiseDecodeError t).st = .issue := rfl
@[simp] theorem Block.raiseDecodeError_tag (t : Byte) : (b.raiseDecodeError t).tag = t := rfl
@[simp] theorem Block.raiseDecodeError_row (t : Byte) : (b.raiseDecodeError t).row = b.row := rfl
@[simp] theorem Block.raiseDecodeError_col (t : Byte) : (b.raiseDecodeError t).col = b.col := rfl
@[simp] theorem Block.raiseDecodeError_gidx (t : Byte) : (b.raiseDecodeError t).gidx = b.gidx := rfl
@[simp] theorem Block.raiseDecodeError_len (t : Byte) : (b.raiseDecodeError t).len = b.len := rfl
@[simp] theorem Block.raiseDecodeError_cnt (t : Byte) : (b.raiseDecodeError t).cnt = b.cnt := rfl
@[simp] theorem Block.raiseDecodeError_text (t : Byte) : (b.raiseDecodeError t).text = b.text := rfl
@[simp] theorem Block.raiseDecodeError_bmp (t : Byte) : (b.raiseDecodeError t).bmp = b.bmp := rfl
@[simp] theorem Block.raiseDecodeError_op (t : Byte) : (b.raiseDecodeError t).op = 6#3 := rfl
@[simp] theorem Block.returnFromDecodeError_st : b.returnFromDecodeError.st = .awaitTag := rfl
@[simp] theorem Block.returnFromDecodeError_tag : b.returnFromDecodeError.tag = b.tag := rfl
@[simp] theorem Block.returnFromDecodeError_row : b.returnFromDecodeError.row = b.row := rfl
@[simp] theorem Block.returnFromDecodeError_col : b.returnFromDecodeError.col = b.col := rfl
@[simp] theorem Block.returnFromDecodeError_gidx : b.returnFromDecodeError.gidx = b.gidx := rfl
@[simp] theorem Block.returnFromDecodeError_len : b.returnFromDecodeError.len = b.len := rfl
@[simp] theorem Block.returnFromDecodeError_cnt : b.returnFromDecodeError.cnt = b.cnt := rfl
@[simp] theorem Block.returnFromDecodeError_text : b.returnFromDecodeError.text = b.text := rfl
@[simp] theorem Block.returnFromDecodeError_bmp : b.returnFromDecodeError.bmp = b.bmp := rfl
@[simp] theorem Block.returnFromDecodeError_op : b.returnFromDecodeError.op = b.op := rfl

/-! ### `onBlock`, `consume`, `withStream`, `clock` -/

@[simp] theorem State.onBlock_blk (f : Block → Block) : (s.onBlock f).blk = f s.blk := rfl
@[simp] theorem State.onBlock_consumed (f : Block → Block) : (s.onBlock f).consumed = s.consumed := rfl
@[simp] theorem State.onBlock_trace (f : Block → Block) : (s.onBlock f).trace = s.trace := rfl
@[simp] theorem State.onBlock_rx (f : Block → Block) : (s.onBlock f).rx = s.rx := rfl
@[simp] theorem State.onBlock_sched (f : Block → Block) : (s.onBlock f).sched = s.sched := rfl
@[simp] theorem State.onBlock_levels (f : Block → Block) : (s.onBlock f).levels = s.levels := rfl
@[simp] theorem State.onBlock_overruns (f : Block → Block) : (s.onBlock f).overruns = s.overruns := rfl
@[simp] theorem State.consume_blk (n : Nat) : (s.consume n).blk = s.blk := rfl
@[simp] theorem State.consume_consumed (n : Nat) : (s.consume n).consumed = s.consumed + n := rfl
@[simp] theorem State.consume_trace (n : Nat) : (s.consume n).trace = s.trace := rfl
@[simp] theorem State.consume_rx (n : Nat) : (s.consume n).rx = s.rx.drop n := rfl
@[simp] theorem State.consume_sched (n : Nat) : (s.consume n).sched = s.sched.drop n := rfl
@[simp] theorem State.consume_levels (n : Nat) : (s.consume n).levels = s.levels := rfl
@[simp] theorem State.consume_overruns (n : Nat) : (s.consume n).overruns = s.overruns := rfl
@[simp] theorem State.withStream_blk (bs : List Byte) : (s.withStream bs).blk = s.blk.setSt .awaitTag := rfl
@[simp] theorem State.withStream_consumed (bs : List Byte) : (s.withStream bs).consumed = s.consumed := rfl
@[simp] theorem State.withStream_trace (bs : List Byte) : (s.withStream bs).trace = s.trace := rfl
@[simp] theorem State.withStream_rx (bs : List Byte) : (s.withStream bs).rx = bs ++ s.rx := rfl
@[simp] theorem State.withStream_sched (bs : List Byte) : (s.withStream bs).sched = s.streamingEdges bs.length ++ s.sched := rfl
@[simp] theorem State.withStream_levels (bs : List Byte) : (s.withStream bs).levels = s.levels := rfl
@[simp] theorem State.withStream_overruns (bs : List Byte) : (s.withStream bs).overruns = s.overruns := rfl
@[simp] theorem State.clock_blk : s.clock.blk = s.blk.clockEdge s.inputs := rfl
@[simp] theorem State.clock_consumed :
    s.clock.consumed = s.consumed + (s.blk.byteBeat s.inputs).toList.length := rfl
@[simp] theorem State.clock_trace :
    s.clock.trace = s.trace ++ (if s.blk.commandBeat s.inputs then s.blk.presented.toList else []) := rfl
@[simp] theorem State.clock_rx : s.clock.rx = s.rxAfterBeat ++ s.arrived := rfl
@[simp] theorem State.clock_sched : s.clock.sched = s.sched.tail := rfl
@[simp] theorem State.clock_levels : s.clock.levels = s.levels := rfl
@[simp] theorem State.clock_overruns :
    s.clock.overruns = s.overruns + (if (s.edgeAt 0).arrival.isSome && s.sourceFull then 1 else 0) := rfl

end Sys2Proof.Machine
end

