-- ==== Sys2Proof/Laws/Ops.lean ====
section
/-! SUPPORT. What the shared operations on buffers and operands do, said once. -/

namespace Sys2Proof.Machine

/-! ## The length clamp and the counters -/

@[simp] theorem clampLength_toNat (declared : Byte) : (clampLength declared).toNat = min declared.toNat maxText := by
  have : min declared.toNat maxText < 2 ^ 5 := Nat.lt_of_le_of_lt (Nat.min_le_right _ _) (by decide)
  simpa [clampLength] using Nat.mod_eq_of_lt this

/-- A counter below 31 counts up without wrapping. -/
theorem Count.toNat_succ (c : Count) (h : c.toNat < 31) : (c + 1#5).toNat = c.toNat + 1 := by
  rw [BitVec.toNat_add]
  exact Nat.mod_eq_of_lt (by simpa using Nat.succ_lt_succ h)

/-! ## Buffers -/

variable {n : Nat}

/-- Elements before the first one stored keep their values. -/
theorem storeBytes_below (buf : Vector Byte n) (k j : Nat) (vs : List Byte) (h : j < k) :
    (storeBytes buf k vs)[j]? = buf[j]? := by
  induction vs generalizing buf k with
  | nil => rfl
  | cons v vs ih =>
    rw [storeBytes, ih _ _ (by omega), Vector.getElem?_setIfInBounds]
    simp [show k ≠ j by omega]

/-- Elements past the last one stored keep their values (R38). -/
theorem storeBytes_above (buf : Vector Byte n) (k j : Nat) (vs : List Byte) (h : k + vs.length ≤ j) :
    (storeBytes buf k vs)[j]? = buf[j]? := by
  induction vs generalizing buf k with
  | nil => rfl
  | cons v vs ih =>
    simp only [List.length_cons] at h
    rw [storeBytes, ih _ _ (by omega), Vector.getElem?_setIfInBounds]
    simp [show k ≠ j by omega]

/-- The stored bytes stand in arrival order (R41). -/
theorem storeBytes_stored (buf : Vector Byte n) (k j : Nat) (vs : List Byte) (hk : k ≤ j) (hj : j < k + vs.length)
    (hn : j < n) : (storeBytes buf k vs)[j]? = vs[j - k]? := by
  induction vs generalizing buf k with
  | nil => simp at hj; omega
  | cons v vs ih =>
    simp only [List.length_cons] at hj
    rw [storeBytes]
    by_cases h : k = j
    · subst h
      rw [storeBytes_below _ _ _ _ (Nat.lt_succ_self k), Vector.getElem?_setIfInBounds]
      simp [hn]
    · rw [ih _ _ (by omega) (by omega), show j - k = (j - (k + 1)) + 1 by omega, List.getElem?_cons_succ]

theorem storeBytes_append (buf : Vector Byte n) (k : Nat) (vs ws : List Byte) :
    storeBytes buf k (vs ++ ws) = storeBytes (storeBytes buf k vs) (k + vs.length) ws := by
  induction vs generalizing buf k with
  | nil => rfl
  | cons v vs ih => rw [List.cons_append, storeBytes, storeBytes, ih, List.length_cons]; congr 1; omega

/-- Storing from the start and reading as many back gives the bytes. -/
theorem storeBytes_take (buf : Vector Byte n) (vs : List Byte) (h : vs.length ≤ n) :
    (storeBytes buf 0 vs).toList.take vs.length = vs := by
  apply List.ext_getElem?
  intro j
  by_cases hj : j < vs.length
  · rw [List.getElem?_take_of_lt hj, Vector.getElem?_toList, storeBytes_stored _ _ _ _ (Nat.zero_le _) (by omega) (by omega)]
    simp
  · rw [List.getElem?_take_eq_none (by omega), List.getElem?_eq_none (by omega)]

/-- Storing over the whole buffer leaves nothing of it. -/
theorem storeBytes_full (buf : Vector Byte n) (v : Vector Byte n) : storeBytes buf 0 v.toList = v := by
  apply Vector.toList_inj.mp
  have h := storeBytes_take buf v.toList (by simp)
  rwa [List.take_of_length_le (by simp)] at h

end Sys2Proof.Machine
end

