-- ==== Sys2Proof/Laws/Framer.lean ====
section
/-! SUPPORT. The byte-level machine: one lemma per state of the framer, runs and traces of appended streams, and the
two loops of `PR_TEXT` and `CG_BMP` as wholes. -/

namespace Sys2Proof.Machine

variable {b : Block} {x : Byte}

/-! ## One byte, by state -/

theorem byteStep_awaitTag (h : b.st = .awaitTag) : byteStep b x = tagStep b x := by simp [byteStep, h]

theorem byteStep_scRow (h : b.st = .scRow) : byteStep b x = ((b.setRow x).setSt .scCol, none) := by
  simp [byteStep, h]

theorem byteStep_scCol (h : b.st = .scCol) :
    byteStep b x = ((b.setCol x).setSt .awaitTag, some (.setCursor b.row x)) := by simp [byteStep, h]

theorem byteStep_prLen (h : b.st = .prLen) : byteStep b x = printLengthStep b x := by simp [byteStep, h]

theorem byteStep_prText (h : b.st = .prText) : byteStep b x = printTextStep b x := by simp [byteStep, h]

theorem byteStep_pgIdx (h : b.st = .pgIdx) :
    byteStep b x = ((b.setGidx x).setSt .awaitTag, some (.printGlyph x)) := by simp [byteStep, h]

theorem byteStep_cgIdx (h : b.st = .cgIdx) : byteStep b x = (((b.setGidx x).setCnt 0#5).setSt .cgBmp, none) := by
  simp [byteStep, h]

theorem byteStep_cgBmp (h : b.st = .cgBmp) : byteStep b x = bitmapStep b x := by simp [byteStep, h]

/-! ## The tag map -/

theorem tagStep_idle : tagStep b tagIdle = ((b.setTag tagIdle).setSt .awaitTag, none) := rfl
theorem tagStep_clear : tagStep b tagClear = ((b.setTag tagClear).setSt .awaitTag, some .clear) := rfl
theorem tagStep_setCursor : tagStep b tagSetCursor = ((b.setTag tagSetCursor).setSt .scRow, none) := rfl
theorem tagStep_print : tagStep b tagPrint = ((b.setTag tagPrint).setSt .prLen, none) := rfl
theorem tagStep_printGlyph : tagStep b tagPrintGlyph = ((b.setTag tagPrintGlyph).setSt .pgIdx, none) := rfl
theorem tagStep_createGlyph : tagStep b tagCreateGlyph = ((b.setTag tagCreateGlyph).setSt .cgIdx, none) := rfl

theorem tagStep_unknown (h : tagCreateGlyph.toNat < x.toNat) :
    tagStep b x = ((b.setTag x).setSt .awaitTag, some (.errorReport x)) := by
  obtain ⟨h0, h1, h2, h3, h4, h5⟩ := tag_unknown h
  simp [tagStep, h0, h1, h2, h3, h4, h5]

/-! ## Print's length -/

theorem clampLength_eq_zero : clampLength x = 0#5 ↔ x = 0#8 := by
  rw [← BitVec.toNat_inj, clampLength_toNat, ← BitVec.toNat_inj]
  simp only [maxText, BitVec.toNat_ofNat]
  omega

theorem printLengthStep_zero : printLengthStep b 0#8 = (((b.setLen 0#5).setCnt 0#5).setSt .awaitTag, some (.print [])) := rfl

theorem printLengthStep_pos (h : x ≠ 0#8) :
    printLengthStep b x = (((b.setLen (clampLength x)).setCnt 0#5).setSt .prText, none) := by
  have : clampLength x ≠ 0#5 := fun hc => h (clampLength_eq_zero.mp hc)
  simp [printLengthStep, this]

/-! ## One text byte, one bitmap byte -/

theorem printTextStep_more (hc : b.cnt.toNat < 31) (h : b.cnt.toNat + 1 ≠ b.len.toNat) :
    printTextStep b x = ((b.writeText b.cnt.toNat x).setCnt (b.cnt + 1#5), none) := by
  have : b.cnt + 1#5 ≠ b.len := fun he => h (by rw [← he, Count.toNat_succ _ hc])
  simp [printTextStep, this]

theorem printTextStep_last (h : b.cnt.toNat + 1 = b.len.toNat) :
    printTextStep b x = (((b.writeText b.cnt.toNat x).setCnt b.len).setSt .awaitTag,
      some (.print ((b.text.setIfInBounds b.cnt.toNat x).toList.take b.len.toNat))) := by
  have hc : b.cnt.toNat < 31 := by have := b.len.isLt; omega
  have : b.cnt + 1#5 = b.len := BitVec.eq_of_toNat_eq (by rw [Count.toNat_succ _ hc]; exact h)
  simp [printTextStep, this, Block.textPrefix]

theorem bitmapStep_more (hc : b.cnt.toNat < 31) (h : b.cnt.toNat + 1 ≠ bitmapLen) :
    bitmapStep b x = ((b.writeBmp b.cnt.toNat x).setCnt (b.cnt + 1#5), none) := by
  simp only [bitmapStep, Block.setCnt_cnt, Count.toNat_succ _ hc, if_neg h]

theorem bitmapStep_last (h : b.cnt.toNat + 1 = bitmapLen) :
    bitmapStep b x = (((b.writeBmp b.cnt.toNat x).setCnt (b.cnt + 1#5)).setSt .awaitTag,
      some (.defineGlyph b.gidx (b.bmp.setIfInBounds b.cnt.toNat x))) := by
  have hc : b.cnt.toNat < 31 := by simp only [bitmapLen] at h; omega
  simp only [bitmapStep, Block.setCnt_cnt, Count.toNat_succ _ hc, if_pos h]
  rfl

/-! ## Runs and traces of appended streams -/

theorem byteRun_append (b : Block) (xs ys : List Byte) : byteRun b (xs ++ ys) = byteRun (byteRun b xs) ys := by
  induction xs generalizing b with
  | nil => rfl
  | cons x xs ih => exact ih _

theorem byteTrace_append (b : Block) (xs ys : List Byte) :
    byteTrace b (xs ++ ys) = byteTrace b xs ++ byteTrace (byteRun b xs) ys := by
  induction xs generalizing b with
  | nil => rfl
  | cons x xs ih => simp [byteTrace, byteRun, ih]

/-! ## The text loop -/

/-- Text bytes that do not yet fill the declared length: they are stored, counted, and nothing is put out. -/
theorem text_loop_more (b : Block) (xs : List Byte) (hst : b.st = .prText) (hlen : b.len.toNat ≤ maxText)
    (h : b.cnt.toNat + xs.length < b.len.toNat) :
    byteRun b xs = (b.setText (storeBytes b.text b.cnt.toNat xs)).setCnt (BitVec.ofNat 5 (b.cnt.toNat + xs.length)) ∧
    byteTrace b xs = [] := by
  induction xs generalizing b with
  | nil => simp [byteRun, byteTrace, storeBytes, Block.setText, Block.setCnt]
  | cons x xs ih =>
    simp only [List.length_cons] at h
    have hc : (b.cnt + 1#5).toNat = b.cnt.toNat + 1 := Count.toNat_succ _ (by simp only [maxText] at hlen; omega)
    have hne : b.cnt + 1#5 ≠ b.len := fun he => by rw [← he, hc] at h; omega
    have hs : byteStep b x = ((b.writeText b.cnt.toNat x).setCnt (b.cnt + 1#5), none) := by
      simp [byteStep_prText hst, printTextStep, hne]
    obtain ⟨h1, h2⟩ := ih ((b.writeText b.cnt.toNat x).setCnt (b.cnt + 1#5)) (by simpa using hst) (by simpa using hlen)
      (by simp [hc]; omega)
    refine ⟨?_, by simp [byteTrace, hs, h2]⟩
    rw [byteRun, hs]
    dsimp only
    rw [h1]
    simp only [Block.setCnt_cnt, Block.setCnt_text, Block.writeText_text, hc, storeBytes, List.length_cons]
    rw [show b.cnt.toNat + 1 + xs.length = b.cnt.toNat + (xs.length + 1) by omega]
    rfl

/-- Text bytes that just fill the declared length: the last one puts out the Print. -/
theorem text_loop_last (b : Block) (xs : List Byte) (hst : b.st = .prText) (hlen : b.len.toNat ≤ maxText)
    (hne : xs ≠ []) (h : b.cnt.toNat + xs.length = b.len.toNat) :
    byteRun b xs = ((b.setText (storeBytes b.text b.cnt.toNat xs)).setCnt b.len).setSt .awaitTag ∧
    byteTrace b xs = [.print ((storeBytes b.text b.cnt.toNat xs).toList.take b.len.toNat)] := by
  obtain ⟨ys, y, rfl⟩ : ∃ ys y, xs = ys ++ [y] := ⟨xs.dropLast, xs.getLast hne, (List.dropLast_append_getLast hne).symm⟩
  simp only [List.length_append, List.length_singleton] at h
  obtain ⟨h1, h2⟩ := text_loop_more b ys hst hlen (by omega)
  rw [byteRun_append, byteTrace_append, h1, h2]
  have hlt : b.cnt.toNat + ys.length < 2 ^ 5 := by simp only [maxText] at hlen; omega
  have hcnt : (BitVec.ofNat 5 (b.cnt.toNat + ys.length)).toNat = b.cnt.toNat + ys.length := Nat.mod_eq_of_lt hlt
  have hfull : BitVec.ofNat 5 (b.cnt.toNat + ys.length) + 1#5 = b.len := by
    apply BitVec.eq_of_toNat_eq
    rw [Count.toNat_succ _ (by rw [hcnt]; simp only [maxText] at hlen; omega), hcnt]; omega
  simp [byteRun, byteTrace, byteStep, hst, printTextStep, hfull, hcnt, storeBytes_append, storeBytes,
    Block.textPrefix]
  simp [Block.setSt, Block.setCnt, Block.setText, Block.writeText]

/-! ## The bitmap loop -/

theorem bitmap_loop_more (b : Block) (xs : List Byte) (hst : b.st = .cgBmp)
    (h : b.cnt.toNat + xs.length < bitmapLen) :
    byteRun b xs = (b.setBmp (storeBytes b.bmp b.cnt.toNat xs)).setCnt (BitVec.ofNat 5 (b.cnt.toNat + xs.length)) ∧
    byteTrace b xs = [] := by
  induction xs generalizing b with
  | nil => simp [byteRun, byteTrace, storeBytes, Block.setBmp, Block.setCnt]
  | cons x xs ih =>
    simp only [List.length_cons, bitmapLen] at h
    have hc : (b.cnt + 1#5).toNat = b.cnt.toNat + 1 := Count.toNat_succ _ (by omega)
    have hs : byteStep b x = ((b.writeBmp b.cnt.toNat x).setCnt (b.cnt + 1#5), none) := by
      have : b.cnt.toNat + 1 ≠ bitmapLen := by simp only [bitmapLen]; omega
      simp only [byteStep_cgBmp hst, bitmapStep, Block.setCnt_cnt, hc, if_neg this]
    obtain ⟨h1, h2⟩ := ih ((b.writeBmp b.cnt.toNat x).setCnt (b.cnt + 1#5)) (by simpa using hst)
      (by simp only [Block.setCnt_cnt, hc, bitmapLen]; omega)
    refine ⟨?_, by simp [byteTrace, hs, h2]⟩
    rw [byteRun, hs]
    dsimp only
    rw [h1]
    simp only [Block.setCnt_cnt, Block.setCnt_bmp, Block.writeBmp_bmp, hc, storeBytes, List.length_cons]
    rw [show b.cnt.toNat + 1 + xs.length = b.cnt.toNat + (xs.length + 1) by omega]
    rfl

theorem bitmap_loop_last (b : Block) (xs : List Byte) (hst : b.st = .cgBmp) (hne : xs ≠ [])
    (h : b.cnt.toNat + xs.length = bitmapLen) :
    byteRun b xs =
      ((b.setBmp (storeBytes b.bmp b.cnt.toNat xs)).setCnt (BitVec.ofNat 5 bitmapLen)).setSt .awaitTag ∧
    byteTrace b xs = [.defineGlyph b.gidx (storeBytes b.bmp b.cnt.toNat xs)] := by
  obtain ⟨ys, y, rfl⟩ : ∃ ys y, xs = ys ++ [y] := ⟨xs.dropLast, xs.getLast hne, (List.dropLast_append_getLast hne).symm⟩
  simp only [List.length_append, List.length_singleton, bitmapLen] at h
  obtain ⟨h1, h2⟩ := bitmap_loop_more b ys hst (by simp only [bitmapLen]; omega)
  rw [byteRun_append, byteTrace_append, h1, h2]
  have hcnt : b.cnt.toNat + ys.length = 7 := by omega
  simp [byteRun, byteTrace, byteStep, hst, bitmapStep, hcnt, storeBytes_append, storeBytes]
  simp [Block.setSt, Block.setCnt, Block.setBmp, Block.writeBmp]

end Sys2Proof.Machine
end

