-- ==== Sys2Proof/Laws/Circuit.lean ====
section
/-! SUPPORT. The circuit: the plan of edges as time passes, the cases of one edge for the block and for the whole state,
and runs of edges. -/

namespace Sys2Proof.Machine

/-! ## The plan of edges -/

@[simp] theorem State.edgeAt_clock (s : State) (k : Nat) : s.clock.edgeAt k = s.edgeAt (k + 1) := by
  simp [State.edgeAt, List.getD_eq_getElem?_getD]

@[simp] theorem State.edgeAt_consume (s : State) (n k : Nat) : (s.consume n).edgeAt k = s.edgeAt (n + k) := by
  simp [State.edgeAt, List.getD_eq_getElem?_getD]

@[simp] theorem State.edgeAt_onBlock (s : State) (f : Block → Block) (k : Nat) :
    (s.onBlock f).edgeAt k = s.edgeAt k := rfl

/-! ## The ports -/

@[simp] theorem Block.rxReady_eq_true (b : Block) : b.rxReady = true ↔ b.st ≠ .issue := by simp [Block.rxReady]

@[simp] theorem Block.cmdValid_eq_true (b : Block) : b.cmdValid = true ↔ b.st = .issue := by simp [Block.cmdValid]

theorem Block.presented_of_issue {b : Block} (h : b.st = .issue) : b.presented = b.commandOfOp := by
  simp [Block.presented, h]

theorem Block.presented_of_ne_issue {b : Block} (h : b.st ≠ .issue) : b.presented = none := by
  simp [Block.presented, h]

/-- A byte is consumed exactly when a receiving block is offered one and is not being reset (R27). -/
theorem Block.byteBeat_eq_some {b : Block} {i : Inputs} {x : Byte} :
    b.byteBeat i = some x ↔ i.rst = false ∧ b.st ≠ .issue ∧ i.rx = some x := by
  unfold Block.byteBeat
  split <;> rename_i h <;> simp at h ⊢ <;> tauto

/-- A command completes exactly when one is pending, the driver is ready and there is no reset (R33). -/
theorem Block.commandBeat_eq_true {b : Block} {i : Inputs} :
    b.commandBeat i = true ↔ i.rst = false ∧ b.st = .issue ∧ i.cmdReady = true := by
  simp [Block.commandBeat, and_assoc]

/-! ## One edge of the block -/

theorem Block.acceptByte_none {b : Block} {x : Byte} (h : (byteStep b x).2 = none) :
    b.acceptByte x = (byteStep b x).1 := by
  unfold Block.acceptByte
  split <;> simp_all

theorem Block.acceptByte_some {b : Block} {x : Byte} {c : Cmd} (h : (byteStep b x).2 = some c) :
    b.acceptByte x = (byteStep b x).1.issue c := by
  unfold Block.acceptByte
  split <;> simp_all

theorem Block.clockEdge_rst {b : Block} {i : Inputs} (h : i.rst = true) : b.clockEdge i = Block.reset := by
  simp [Block.clockEdge, h]

theorem Block.clockEdge_byte {b : Block} {i : Inputs} {x : Byte} (hr : i.rst = false) (hs : b.st ≠ .issue)
    (hx : i.rx = some x) : b.clockEdge i = b.acceptByte x := by simp [Block.clockEdge, hr, hs, hx]

theorem Block.clockEdge_wait {b : Block} {i : Inputs} (hr : i.rst = false) (hs : b.st ≠ .issue)
    (hx : i.rx = none) : b.clockEdge i = b := by simp [Block.clockEdge, hr, hs, hx]

theorem Block.clockEdge_complete {b : Block} {i : Inputs} (hr : i.rst = false) (hs : b.st = .issue)
    (hc : i.cmdReady = true) : b.clockEdge i = b.complete := by simp [Block.clockEdge, hr, hs, hc]

theorem Block.clockEdge_hold {b : Block} {i : Inputs} (hr : i.rst = false) (hs : b.st = .issue)
    (hc : i.cmdReady = false) : b.clockEdge i = b := by simp [Block.clockEdge, hr, hs, hc]

/-! ## One edge of the whole state -/

@[simp] theorem State.inputs_rst (s : State) : s.inputs.rst = (s.edgeAt 0).pins.rst := rfl
@[simp] theorem State.inputs_cmdReady (s : State) : s.inputs.cmdReady = (s.edgeAt 0).pins.cmdReady := rfl

theorem State.arrived_none {s : State} (h : (s.edgeAt 0).arrival = none) : s.arrived = [] := by
  simp [State.arrived, h]

theorem Edge.streams_iff (e : Edge) :
    e.streams = true ↔ e.pins.rst = false ∧ e.pins.offers = true ∧ e.arrival = none := by
  simp [Edge.streams, and_assoc]

/-- At a streaming edge a receiving block consumes the head of the byte source, and nothing else happens. -/
theorem State.clock_streams {s : State} {x : Byte} {xs : List Byte} (hs : s.blk.st ≠ .issue) (hx : s.rx = x :: xs)
    (he : (s.edgeAt 0).streams = true) :
    s.clock = (s.consume 1).onBlock fun b => b.acceptByte x := by
  obtain ⟨hr, ho, ha⟩ := (Edge.streams_iff _).mp he
  have hin : s.inputs.rx = some x := by simp [State.inputs, ho, hx]
  have hb : s.blk.byteBeat s.inputs = some x := Block.byteBeat_eq_some.mpr ⟨hr, hs, hin⟩
  have hc : s.blk.commandBeat s.inputs = false := by
    rw [Bool.eq_false_iff]; intro h; exact hs (Block.commandBeat_eq_true.mp h).2.1
  unfold State.clock
  rw [Block.clockEdge_byte (by simpa using hr) hs hin, hb, hc, State.arrived_none ha]
  simp [State.rxAfterBeat, hb, hx, ha, State.onBlock, State.consume]

/-! ## Runs of edges -/

@[simp] theorem State.clocks_zero (s : State) : s.clocks 0 = s := rfl

theorem State.clocks_succ (n : Nat) (s : State) : s.clocks (n + 1) = s.clock.clocks n := rfl

theorem State.clocks_add (m n : Nat) (s : State) : s.clocks (m + n) = (s.clocks m).clocks n := by
  induction m generalizing s with
  | zero => simp
  | succ m ih => rw [Nat.succ_add, State.clocks_succ, ih, State.clocks_succ]

theorem State.clocks_succ_last (n : Nat) (s : State) : s.clocks (n + 1) = (s.clocks n).clock := by
  rw [State.clocks_add]; rfl

@[simp] theorem State.edgeAt_clocks (s : State) (n k : Nat) : (s.clocks n).edgeAt k = s.edgeAt (n + k) := by
  induction n generalizing s k with
  | zero => simp
  | succ n ih => rw [State.clocks_succ, ih, State.edgeAt_clock]; congr 1; omega

theorem State.undisturbed_clock {s : State} (h : s.undisturbed) : s.clock.undisturbed := fun k => by
  simpa using h (k + 1)

end Sys2Proof.Machine
end

