-- ==== Sys2Proof/Laws/HostEncoder.lean ====
section
/-! SUPPORT. The host encoder's operands, and how a hex text is read into tokens and bytes, said once. -/

namespace Sys2Proof.Machine

/-! ## Integer operands -/

/-- Every byte is its own operand (R63, R65). -/
@[simp] theorem byteOfInt_toNat (x : Byte) : byteOfInt x.toNat = some x := by
  have hx : (x.toNat : Int) < 2 ^ byteWidth := by exact_mod_cast x.isLt
  rw [byteOfInt, if_pos ⟨Int.natCast_nonneg _, hx⟩]
  simp

/-- An integer outside 0..255 is no operand (R63, R65). -/
theorem byteOfInt_none {v : Int} (h : v < 0 ∨ 255 < v) : byteOfInt v = none := by
  have h8 : (2 : Int) ^ byteWidth = 256 := rfl
  rw [byteOfInt, h8, if_neg (by omega)]

/-! ## Tokens -/

/-- Characters that do not separate join the token being read. -/
theorem splitTokens_append {cur tok : List Char} (rest : List Char) (h : ∀ c ∈ tok, isSeparator c = false) :
    splitTokens cur (tok ++ rest) = splitTokens (cur ++ tok) rest := by
  induction tok generalizing cur with
  | nil => simp
  | cons c tok ih =>
    rw [List.cons_append, splitTokens, h c (by simp)]
    simpa using ih (cur := cur ++ [c]) fun d hd => h d (by simp [hd])

/-! ## Bytes -/

/-- The bytes of the next token and of those after it (R67). -/
theorem bytesOfTokens_cons_eq_some {n : Nat} {tok : List Char} {toks : List (List Char)} {m : List Byte} :
    bytesOfTokens (n + 1) (tok :: toks) = some m ↔
      ∃ x xs, hexByte tok = some x ∧ bytesOfTokens n toks = some xs ∧ m = x :: xs := by
  rw [bytesOfTokens]
  split
  · rename_i x xs hx hxs
    constructor
    · intro h; cases h; exact ⟨x, xs, hx, hxs, rfl⟩
    · rintro ⟨y, ys, hy, hys, rfl⟩; rw [hx] at hy; rw [hxs] at hys; cases hy; cases hys; rfl
  · rename_i h
    constructor
    · intro h; cases h
    · rintro ⟨y, ys, hy, hys, -⟩; exact (h y ys hy hys).elim

end Sys2Proof.Machine
end

