-- ==== Sys2Proof/Laws/Step.lean ====
section
/-! SUPPORT. What a step can do, said once: run a fetched packet, or one edge; and what running a packet does to the
block. -/

namespace Sys2Proof.Machine

/-- The block's registers after a whole packet (R85-R91). -/
def packetEffect (b : Block) : Instr → Block
  | .idle => (b.setTag tagIdle).setSt .awaitTag
  | .clear => (b.setTag tagClear).issue .clear
  | .setCursor row col => (((b.setTag tagSetCursor).setRow row).setCol col).issue (.setCursor row col)
  | .print declared text => (b.storePrint declared text).issue (.print text)
  | .printGlyph index => ((b.setTag tagPrintGlyph).setGidx index).issue (.printGlyph index)
  | .createGlyph index bitmap =>
    ((((b.setTag tagCreateGlyph).setGidx index).setCnt (BitVec.ofNat 5 bitmapLen)).setBmp bitmap).issue
      (.defineGlyph index bitmap)
  | .unknown tag => b.raiseDecodeError tag

/-- Running a packet always answers a next state, and changes the block only. -/
theorem exec_eq (i : Instr) (s : State) : exec i s = .next (s.onBlock fun b => packetEffect b i) := by
  cases i <;> rfl

/-- The packet fetched is at a packet boundary and decodes from the bytes the port will carry. -/
theorem State.fetch_eq_some {s : State} {i : Instr} :
    s.fetch = some i ↔ s.blk.st = .awaitTag ∧ ∃ rest, decode s.burst = .ok (i, rest) := by
  unfold State.fetch
  split
  · rename_i h
    split <;> rename_i hd <;> simp [h, hd]
  · rename_i h
    simp [h]

/-- A step that answers `t` ran a fetched packet or one edge. -/
theorem step_cases {s t : State} (h : step s = .next t) :
    (∃ i, s.fetch = some i ∧ t = (s.consume i.length).onBlock fun b => packetEffect b i) ∨
    (s.fetch = none ∧ t = s.clock) := by
  unfold step at h
  split at h
  · rename_i i hi
    rw [exec_eq] at h
    exact .inl ⟨i, hi, by cases h; rfl⟩
  · rename_i hn
    exact .inr ⟨hn, by cases h; rfl⟩

/-! ## The bytes on the port -/

/-- The bytes on the port are the first the byte source holds. -/
theorem State.burstFrom_isPrefix (s : State) (fuel k : Nat) (xs : List Byte) : s.burstFrom fuel k xs <+: xs := by
  induction fuel generalizing k xs with
  | zero => exact List.nil_prefix
  | succ fuel ih =>
    cases xs with
    | nil => exact List.nil_prefix
    | cons x xs =>
      simp only [State.burstFrom]
      split
      · exact List.cons_prefix_cons.mpr ⟨rfl, ih _ _⟩
      · exact List.nil_prefix

/-- Bytes on the port come at streaming edges. -/
theorem State.burstFrom_streams (s : State) (fuel k : Nat) (xs : List Byte) (j : Nat)
    (h : j < (s.burstFrom fuel k xs).length) : (s.edgeAt (k + j)).streams = true := by
  induction fuel generalizing k xs j with
  | zero => simp [State.burstFrom] at h
  | succ fuel ih =>
    cases xs with
    | nil => simp [State.burstFrom] at h
    | cons x xs =>
      simp only [State.burstFrom] at h
      split at h
      · rename_i he
        cases j with
        | zero => exact he
        | succ j =>
          have := ih (k + 1) xs j (by simpa using h)
          rwa [show k + (j + 1) = k + 1 + j by omega]
      · simp at h

/-- At streaming edges the bytes held do come to the port, up to the longest packet. -/
theorem State.burstFrom_of_streams (s : State) (fuel k : Nat) (xs ys : List Byte) (hf : xs.length ≤ fuel)
    (h : ∀ j, j < xs.length → (s.edgeAt (k + j)).streams = true) : xs <+: s.burstFrom fuel k (xs ++ ys) := by
  induction fuel generalizing k xs with
  | zero => rw [List.length_eq_zero_iff.mp (Nat.le_zero.mp hf)]; exact List.nil_prefix
  | succ fuel ih =>
    cases xs with
    | nil => exact List.nil_prefix
    | cons x xs =>
      simp only [List.length_cons] at hf h
      simp only [List.cons_append, State.burstFrom]
      have h0 : (s.edgeAt k).streams = true := by simpa using h 0 (by omega)
      rw [if_pos h0]
      refine List.cons_prefix_cons.mpr ⟨rfl, ih _ _ (by omega) fun j hj => ?_⟩
      have := h (j + 1) (by omega)
      rwa [show k + (j + 1) = k + 1 + j by omega] at this

end Sys2Proof.Machine
end

