-- ==== Sys2Proof/Laws/Invariant.lean ====
section
/-! SUPPORT. The block's invariant under one byte and one edge of the circuit; the beginning of the long packets; and
the cases of one edge of the whole state. -/

namespace Sys2Proof.Machine

theorem codeOfTag_unknown {t : Byte} (h : tagCreateGlyph.toNat < t.toNat) : codeOfTag t = some 6#3 := by
  obtain ⟨h0, h1, h2, h3, h4, h5⟩ := tag_unknown h
  simp [codeOfTag, h0, h1, h2, h3, h4, h5]

/-- No tag leads to the code of "none" or to the reserved code (R31). -/
theorem codeOfTag_ne {t : Byte} {c : OpCode} (h : codeOfTag t = some c) : c ≠ 0#3 ∧ c ≠ 7#3 := by
  rcases tag_cases t with rfl | rfl | rfl | rfl | rfl | rfl | ht
  · cases h
  · cases h; decide
  · cases h; decide
  · cases h; decide
  · cases h; decide
  · cases h; decide
  · rw [codeOfTag_unknown ht] at h; cases h; decide

theorem Block.reset_inv : Block.reset.Inv := by
  constructor <;> simp [Block.reset, St.packetTag]

/-- In `AWAIT_TAG` only the bounds are left to check. -/
theorem Block.Inv.of_awaitTag {b : Block} (hs : b.st = .awaitTag) (hl : b.len.toNat ≤ maxText)
    (hc : b.cnt.toNat ≤ maxText) : b.Inv := by
  constructor <;> simp [hs, hl, hc, St.packetTag]

/-- In `ISSUE` the bounds and the code are left to check. -/
theorem Block.Inv.of_issue {b : Block} (hs : b.st = .issue) (hl : b.len.toNat ≤ maxText)
    (hc : b.cnt.toNat ≤ maxText) (ho : codeOfTag b.tag = some b.op) : b.Inv := by
  constructor <;> simp [hs, hl, hc, ho, St.packetTag]

/-- A tag byte keeps the invariant. -/
theorem Block.Inv.acceptTag {b : Block} (hi : b.Inv) (h : b.st = .awaitTag) (x : Byte) : (b.acceptByte x).Inv := by
  have hl := hi.len_le
  have hc := hi.cnt_le
  have hb : byteStep b x = tagStep b x := byteStep_awaitTag h
  rcases tag_cases x with rfl | rfl | rfl | rfl | rfl | rfl | hx
  · rw [Block.acceptByte_none (by rw [hb, tagStep_idle]), hb]
    exact .of_awaitTag rfl hl hc
  · rw [Block.acceptByte_some (c := .clear) (by rw [hb, tagStep_clear]), hb]
    exact .of_issue rfl hl hc rfl
  · rw [Block.acceptByte_none (by rw [hb, tagStep_setCursor]), hb]
    constructor <;> simp [tagStep_setCursor, St.packetTag]
    exacts [hl, hc]
  · rw [Block.acceptByte_none (by rw [hb, tagStep_print]), hb]
    constructor <;> simp [tagStep_print, St.packetTag]
    exacts [hl, hc]
  · rw [Block.acceptByte_none (by rw [hb, tagStep_printGlyph]), hb]
    constructor <;> simp [tagStep_printGlyph, St.packetTag]
    exacts [hl, hc]
  · rw [Block.acceptByte_none (by rw [hb, tagStep_createGlyph]), hb]
    constructor <;> simp [tagStep_createGlyph, St.packetTag]
    exacts [hl, hc]
  · rw [Block.acceptByte_some (c := .errorReport x) (by rw [hb, tagStep_unknown hx]), hb, tagStep_unknown hx]
    exact .of_issue rfl hl hc (codeOfTag_unknown hx)

/-- A length byte keeps the invariant. -/
theorem Block.Inv.acceptLength {b : Block} (hi : b.Inv) (h : b.st = .prLen) (x : Byte) : (b.acceptByte x).Inv := by
  have ht : b.tag = tagPrint := hi.tag_of_packet _ (by rw [h]; rfl)
  by_cases hx : x = 0#8
  · subst hx
    rw [Block.acceptByte_some (c := .print []) (by rw [byteStep_prLen h, printLengthStep_zero]), byteStep_prLen h,
      printLengthStep_zero]
    exact .of_issue rfl (by simp) (by simp) (by simp [ht]; rfl)
  · rw [Block.acceptByte_none (by rw [byteStep_prLen h, printLengthStep_pos hx]), byteStep_prLen h,
      printLengthStep_pos hx]
    have hx' : x.toNat ≠ 0 := fun hh => hx (BitVec.eq_of_toNat_eq hh)
    constructor <;> simp [St.packetTag, ht, maxText]
    omega

/-- A text byte keeps the invariant. -/
theorem Block.Inv.acceptText {b : Block} (hi : b.Inv) (h : b.st = .prText) (x : Byte) : (b.acceptByte x).Inv := by
  have ht : b.tag = tagPrint := hi.tag_of_packet _ (by rw [h]; rfl)
  have hl := hi.len_le
  have hc := hi.text_cnt h
  simp only [maxText] at hl
  by_cases hh : b.cnt.toNat + 1 = b.len.toNat
  · rw [Block.acceptByte_some (by rw [byteStep_prText h, printTextStep_last hh]), byteStep_prText h,
      printTextStep_last hh]
    exact .of_issue rfl hl hl (by simp [ht]; rfl)
  · rw [Block.acceptByte_none (by rw [byteStep_prText h, printTextStep_more (by omega) hh]), byteStep_prText h,
      printTextStep_more (by omega) hh]
    have hcc := Count.toNat_succ b.cnt (by omega)
    constructor <;> simp only [Block.setCnt_cnt, hcc, maxText] <;> simp [St.packetTag, hl, h, ht] <;> omega

/-- A bitmap byte keeps the invariant. -/
theorem Block.Inv.acceptBitmap {b : Block} (hi : b.Inv) (h : b.st = .cgBmp) (x : Byte) : (b.acceptByte x).Inv := by
  have ht : b.tag = tagCreateGlyph := hi.tag_of_packet _ (by rw [h]; rfl)
  have hl := hi.len_le
  have hc := hi.bitmap_cnt h
  simp only [bitmapLen] at hc
  have hcc := Count.toNat_succ b.cnt (by omega)
  by_cases hh : b.cnt.toNat + 1 = bitmapLen
  · rw [Block.acceptByte_some (by rw [byteStep_cgBmp h, bitmapStep_last hh]), byteStep_cgBmp h, bitmapStep_last hh]
    exact .of_issue rfl hl (by simp only [Block.issue_cnt, Block.setSt_cnt, Block.setCnt_cnt, hcc, maxText]; omega)
      (by simp [ht]; rfl)
  · rw [Block.acceptByte_none (by rw [byteStep_cgBmp h, bitmapStep_more (by omega) hh]), byteStep_cgBmp h,
      bitmapStep_more (by omega) hh]
    simp only [bitmapLen] at hh
    constructor <;> simp only [Block.setCnt_cnt, hcc, maxText, bitmapLen] <;> simp [St.packetTag, h, ht]
    exacts [hl, by omega, by omega]

/-- Every byte a receiving block accepts keeps the invariant. -/
theorem Block.Inv.acceptByte {b : Block} (hi : b.Inv) (hs : b.st ≠ .issue) (x : Byte) : (b.acceptByte x).Inv := by
  have hl := hi.len_le
  have hc := hi.cnt_le
  cases h : b.st with
  | awaitTag => exact hi.acceptTag h x
  | scRow =>
    rw [Block.acceptByte_none (by rw [byteStep_scRow h]), byteStep_scRow h]
    have ht : b.tag = tagSetCursor := hi.tag_of_packet _ (by rw [h]; rfl)
    constructor <;> simp [St.packetTag, ht]
    exacts [hl, hc]
  | scCol =>
    rw [Block.acceptByte_some (c := .setCursor b.row x) (by rw [byteStep_scCol h]), byteStep_scCol h]
    have ht : b.tag = tagSetCursor := hi.tag_of_packet _ (by rw [h]; rfl)
    exact .of_issue rfl hl hc (by simp [ht]; rfl)
  | prLen => exact hi.acceptLength h x
  | prText => exact hi.acceptText h x
  | pgIdx =>
    rw [Block.acceptByte_some (c := .printGlyph x) (by rw [byteStep_pgIdx h]), byteStep_pgIdx h]
    have ht : b.tag = tagPrintGlyph := hi.tag_of_packet _ (by rw [h]; rfl)
    exact .of_issue rfl hl hc (by simp [ht]; rfl)
  | cgIdx =>
    rw [Block.acceptByte_none (by rw [byteStep_cgIdx h]), byteStep_cgIdx h]
    have ht : b.tag = tagCreateGlyph := hi.tag_of_packet _ (by rw [h]; rfl)
    constructor <;> simp [St.packetTag, ht, bitmapLen]
    exact hl
  | cgBmp => exact hi.acceptBitmap h x
  | issue => exact absurd h hs

/-- Every edge keeps the block's invariant. -/
theorem Block.Inv.clockEdge {b : Block} (hi : b.Inv) (i : Inputs) : (b.clockEdge i).Inv := by
  cases hr : i.rst with
  | true => rw [Block.clockEdge_rst hr]; exact Block.reset_inv
  | false =>
    by_cases hs : b.st = .issue
    · cases hc : i.cmdReady with
      | false => rwa [Block.clockEdge_hold hr hs hc]
      | true => rw [Block.clockEdge_complete hr hs hc]; exact .of_awaitTag rfl hi.len_le hi.cnt_le
    · cases hx : i.rx with
      | none => rwa [Block.clockEdge_wait hr hs hx]
      | some x => rw [Block.clockEdge_byte hr hs hx]; exact hi.acceptByte hs x

/-! ## The beginning of the long packets -/

/-- A Print some of whose text is still to come (R88). -/
theorem print_front (b : Block) (h : b.st = .awaitTag) (declared : Byte) (front : List Byte)
    (hf : front.length < min declared.toNat maxText) :
    byteRun b (tagPrint :: declared :: front) =
      ((((b.setTag tagPrint).setLen (clampLength declared)).setText (storeBytes b.text 0 front)).setCnt
        (BitVec.ofNat 5 front.length)).setSt .prText ∧
    byteTrace b (tagPrint :: declared :: front) = [] := by
  have hd : declared ≠ 0#8 := by rintro rfl; simp at hf
  have hs : byteStep ((b.setTag tagPrint).setSt .prLen) declared =
      (((((b.setTag tagPrint).setSt .prLen).setLen (clampLength declared)).setCnt 0#5).setSt .prText, none) := by
    rw [byteStep_prLen rfl, printLengthStep_pos hd]
  obtain ⟨h1, h2⟩ := text_loop_more
    (((((b.setTag tagPrint).setSt .prLen).setLen (clampLength declared)).setCnt 0#5).setSt .prText) front rfl
    (by simp) (by simpa using hf)
  constructor
  · rw [byteRun, byteStep_awaitTag h, tagStep_print, byteRun, hs, h1]
    simp; rfl
  · rw [byteTrace, byteStep_awaitTag h, tagStep_print, byteTrace, hs, h2]; rfl

/-- A CreateGlyph some of whose bitmap is still to come (R90). -/
theorem createGlyph_front (b : Block) (h : b.st = .awaitTag) (index : Byte) (front : List Byte)
    (hf : front.length < bitmapLen) :
    byteRun b (tagCreateGlyph :: index :: front) =
      ((((b.setTag tagCreateGlyph).setGidx index).setBmp (storeBytes b.bmp 0 front)).setCnt
        (BitVec.ofNat 5 front.length)).setSt .cgBmp ∧
    byteTrace b (tagCreateGlyph :: index :: front) = [] := by
  obtain ⟨h1, h2⟩ := bitmap_loop_more
    (((((b.setTag tagCreateGlyph).setSt .cgIdx).setGidx index).setCnt 0#5).setSt .cgBmp) front rfl
    (by simpa using hf)
  constructor
  · rw [byteRun, byteStep_awaitTag h, tagStep_createGlyph, byteRun, byteStep_cgIdx rfl, h1]
    simp; rfl
  · rw [byteTrace, byteStep_awaitTag h, tagStep_createGlyph, byteTrace, byteStep_cgIdx rfl, h2]; rfl

/-! ## The cases of one edge of the whole state -/

/-- What one edge does to the block and to what is observed of it: a reset, a byte beat, a wait for a byte, a command
beat, or a wait for the driver. -/
theorem State.clock_cases (s : State) :
    ((s.edgeAt 0).pins.rst = true ∧ s.clock.blk = Block.reset ∧ s.clock.consumed = s.consumed ∧
      s.clock.trace = s.trace ∧ s.clock.rx = s.rx ++ s.arrived) ∨
    ((s.edgeAt 0).pins.rst = false ∧ s.blk.st ≠ .issue ∧ (s.edgeAt 0).pins.offers = true ∧ ∃ x xs, s.rx = x :: xs ∧
      s.clock.blk = s.blk.acceptByte x ∧ s.clock.consumed = s.consumed + 1 ∧ s.clock.trace = s.trace ∧
      s.clock.rx = xs ++ s.arrived) ∨
    ((s.edgeAt 0).pins.rst = false ∧ s.blk.st ≠ .issue ∧ (s.rx = [] ∨ (s.edgeAt 0).pins.offers = false) ∧
      s.clock.blk = s.blk ∧ s.clock.consumed = s.consumed ∧ s.clock.trace = s.trace ∧
      s.clock.rx = s.rx ++ s.arrived) ∨
    ((s.edgeAt 0).pins.rst = false ∧ s.blk.st = .issue ∧ (s.edgeAt 0).pins.cmdReady = true ∧
      s.clock.blk = s.blk.complete ∧ s.clock.consumed = s.consumed ∧
      s.clock.trace = s.trace ++ s.blk.presented.toList ∧ s.clock.rx = s.rx ++ s.arrived) ∨
    ((s.edgeAt 0).pins.rst = false ∧ s.blk.st = .issue ∧ (s.edgeAt 0).pins.cmdReady = false ∧
      s.clock.blk = s.blk ∧ s.clock.consumed = s.consumed ∧ s.clock.trace = s.trace ∧
      s.clock.rx = s.rx ++ s.arrived) := by
  cases hr : (s.edgeAt 0).pins.rst with
  | true =>
    have hb : s.blk.byteBeat s.inputs = none := by simp [Block.byteBeat, hr]
    have hc : s.blk.commandBeat s.inputs = false := by simp [Block.commandBeat, hr]
    exact .inl ⟨rfl, Block.clockEdge_rst hr, by simp [hb], by simp [hc], by simp [State.rxAfterBeat, hb]⟩
  | false =>
    by_cases hs : s.blk.st = .issue
    · have hb : s.blk.byteBeat s.inputs = none := by simp [Block.byteBeat, Block.rxReady, hs]
      cases hc : (s.edgeAt 0).pins.cmdReady with
      | true =>
        have hcb : s.blk.commandBeat s.inputs = true := Block.commandBeat_eq_true.mpr ⟨hr, hs, hc⟩
        exact .inr (.inr (.inr (.inl ⟨rfl, hs, rfl, Block.clockEdge_complete hr hs hc, by simp [hb], by simp [hcb],
          by simp [State.rxAfterBeat, hb]⟩)))
      | false =>
        have hcb : s.blk.commandBeat s.inputs = false := by simp [Block.commandBeat, hc]
        exact .inr (.inr (.inr (.inr ⟨rfl, hs, rfl, Block.clockEdge_hold hr hs hc, by simp [hb], by simp [hcb],
          by simp [State.rxAfterBeat, hb]⟩)))
    · have hc : s.blk.commandBeat s.inputs = false := by simp [Block.commandBeat, Block.cmdValid, hs]
      by_cases ho : (s.edgeAt 0).pins.offers = true
      · cases hx : s.rx with
        | nil =>
          have hin : s.inputs.rx = none := by simp [State.inputs, hx]
          have hb : s.blk.byteBeat s.inputs = none := by simp [Block.byteBeat, hin]
          exact .inr (.inr (.inl ⟨rfl, hs, .inl rfl, Block.clockEdge_wait hr hs hin, by simp [hb], by simp [hc],
            by simp [State.rxAfterBeat, hb, hx]⟩))
        | cons x xs =>
          have hin : s.inputs.rx = some x := by simp [State.inputs, hx, ho]
          have hb : s.blk.byteBeat s.inputs = some x := Block.byteBeat_eq_some.mpr ⟨hr, hs, hin⟩
          exact .inr (.inl ⟨rfl, hs, ho, x, xs, rfl, Block.clockEdge_byte hr hs hin, by simp [hb], by simp [hc],
            by simp [State.rxAfterBeat, hb, hx]⟩)
      · have hin : s.inputs.rx = none := by simp [State.inputs, ho]
        have hb : s.blk.byteBeat s.inputs = none := by simp [Block.byteBeat, hin]
        exact .inr (.inr (.inl ⟨rfl, hs, .inr (by simpa using ho), Block.clockEdge_wait hr hs hin, by simp [hb],
          by simp [hc], by simp [State.rxAfterBeat, hb]⟩))

end Sys2Proof.Machine
end

