-- ==== Sys2Proof/Laws/PerInstr.lean ====
section
/-! SUPPORT. Per-instruction law `EncodedLength`: a well-formed packet's encoding has the length R55 gives, at least one
byte and at most the 18 of a full Print. -/

namespace Sys2Proof.Laws.EncodedLength

/-- The claim about one instruction. -/
def Statement (i : Instr) : Prop :=
  i.wf = true → (encode i).length = i.length ∧ 1 ≤ i.length ∧ i.length ≤ longestPacket

theorem idle : Statement .idle := fun _ => by decide

theorem clear : Statement .clear := fun _ => by decide

theorem setCursor (row col : Byte) : Statement (.setCursor row col) :=
  fun _ => ⟨rfl, Nat.le_of_ble_eq_true rfl, Nat.le_of_ble_eq_true rfl⟩

theorem print (declared : Byte) (text : List Byte) : Statement (.print declared text) := by
  intro h
  have h : text.length = Instr.textLength declared := by simpa [Instr.wf] using h
  have hle : Instr.textLength declared ≤ maxText := Nat.min_le_right _ _
  exact ⟨by simp only [encode, Instr.length, List.length_cons, h]; omega, by simp only [Instr.length]; omega,
    by simp only [Instr.length, longestPacket]; omega⟩

theorem printGlyph (index : Byte) : Statement (.printGlyph index) :=
  fun _ => ⟨rfl, Nat.le_of_ble_eq_true rfl, Nat.le_of_ble_eq_true rfl⟩

theorem createGlyph (index : Byte) (bitmap : Vector Byte bitmapLen) : Statement (.createGlyph index bitmap) :=
  fun _ => ⟨by simp [encode, Instr.length, bitmapLen], Nat.le_of_ble_eq_true rfl, Nat.le_of_ble_eq_true rfl⟩

theorem unknown (tag : Byte) : Statement (.unknown tag) :=
  fun _ => ⟨rfl, Nat.le_of_ble_eq_true rfl, Nat.le_of_ble_eq_true rfl⟩

end Sys2Proof.Laws.EncodedLength
end

