-- ==== Sys2Proof/Tests/Slice0.lean ====
section
/-! SUPPORT. The model's own tests: ill-formed packets, written-out words, one step of each packet, the spec's vectors
(spec/95_test_vectors.md), and a witness for the hypotheses of each statement. Every expected value is the spec's. -/

namespace Sys2Proof.Tests

open Sys2Proof.Machine

/-! ## Helpers -/

/-- The next state of an outcome. -/
def nextOf : Host.Outcome State Fault Refusal → Option State
  | .next t => some t
  | _ => none

/-- The block after one step from reset with a table word placed. -/
def blockAfter (nbits w : Nat) : Option Block :=
  (nextOf (step (State.reset.withFetchWord nbits w))).map (·.blk)

/-- Sixteen bytes `A`. -/
def sixteenA : List Byte := List.replicate 16 0x41

/-- The block after the given bytes, at cycle level with nothing pending. -/
def blockAt (bs : List Byte) : Block := byteRun Block.reset bs

/-- A machine after reset whose source holds `bs`, with held pin levels. -/
def machine (bs : List Byte) (rst offers cmdReady : Bool) : State :=
  { State.reset with rx := bs, levels := { rst := rst, offers := offers, cmdReady := cmdReady } }

/-- The same with a block of its own. -/
def machineIn (b : Block) (bs : List Byte) (rst offers cmdReady : Bool) : State :=
  { machine bs rst offers cmdReady with blk := b }

/-- A block with a Clear pending. -/
def pendingClear : Block := Block.reset.acceptByte 0x01

/-! ## WellFormed smoke -/

theorem test_wf_print_too_short : (Instr.print 3 [0x41]).wf = false := by decide
theorem test_wf_print_over_clamp : (Instr.print 17 (0x41 :: sixteenA)).wf = false := by decide
theorem test_wf_print_clamped : (Instr.print 17 sixteenA).wf = true := by decide
theorem test_wf_unknown_takes_no_known_tag : (Instr.unknown 5).wf = false := by decide
theorem test_wf_unknown_lowest : (Instr.unknown 6).wf = true := by decide

/-! ## Decoding written-out words (R53, R54) -/

theorem test_word_idle : decodeTableWord 8 0x00 = some .idle := by decide
theorem test_word_clear : decodeTableWord 8 0x01 = some .clear := by decide
theorem test_word_setCursor : decodeTableWord 24 0x040102 = some (.setCursor 1 4) := by decide
theorem test_word_print : decodeTableWord 32 0x49480203 = some (.print 2 [0x48, 0x49]) := by decide
theorem test_word_print_zero_operands : decodeTableWord 8 0x03 = some (.print 0 []) := by decide
theorem test_word_printGlyph : decodeTableWord 16 0xFF04 = some (.printGlyph 0xFF) := by decide
theorem test_word_createGlyph :
    decodeTableWord 80 0x00000000000000000A1F0005 = some (.createGlyph 0 #v[0x1F, 0x0A, 0, 0, 0, 0, 0, 0]) := by decide
theorem test_word_unknown_lowest : decodeTableWord 8 0x06 = some (.unknown 0x06) := by decide
theorem test_word_unknown_highest : decodeTableWord 8 0xFF = some (.unknown 0xFF) := by decide
theorem test_decode_incomplete : decode [0x02, 0x01] = .error (.incomplete 0x02) := by rfl
theorem test_decode_print_leaves_surplus :
    decode ([0x03, 0x11] ++ sixteenA ++ [0x41]) = .ok (.print 0x11 sixteenA, [0x41]) := by rfl

/-! ## One step of each packet -/

theorem test_step_idle : (blockAfter 8 0x00).map (fun b => (b.tag, b.st)) = some (0x00, .awaitTag) := by decide
theorem test_step_clear :
    (blockAfter 8 0x01).map (fun b => (b.tag, b.op, b.presented)) = some (0x01, 1, some .clear) := by decide
/-- V7: a payload byte equal to an unknown tag is data. -/
theorem test_step_setCursor :
    (blockAfter 24 0x630502).map (fun b => (b.row, b.col, b.op, b.presented)) =
      some (0x05, 0x63, 2, some (.setCursor 5 99)) := by decide
/-- R88's example, with `CNT` counted up. -/
theorem test_step_print :
    (blockAfter 32 0x49480203).map (fun b => (b.len, b.cnt, b.op, b.presented)) =
      some (2, 2, 3, some (.print [0x48, 0x49])) := by decide
/-- V10: the empty text. -/
theorem test_step_print_empty :
    (blockAfter 16 0x0003).map (fun b => (b.len, b.cnt, b.presented)) = some (0, 0, some (.print [])) := by decide
/-- V20: the index is not clamped. -/
theorem test_step_printGlyph :
    (blockAfter 16 0x0804).map (fun b => (b.gidx, b.op, b.presented)) = some (8, 4, some (.printGlyph 8)) := by decide
/-- R90's example. -/
theorem test_step_createGlyph :
    (blockAfter 80 0x0A1F0005).map (fun b => (b.gidx, b.cnt, b.op, b.presented)) =
      some (0, 8, 5, some (.defineGlyph 0 #v[0x1F, 0x0A, 0, 0, 0, 0, 0, 0])) := by decide
/-- V27: the highest unknown tag. -/
theorem test_step_unknown :
    (blockAfter 8 0xFF).map (fun b => (b.tag, b.op, b.presented)) = some (0xFF, 6, some (.errorReport 0xFF)) := by decide

/-! ## The spec's byte-level vectors -/

/-- E5 and V29. -/
theorem test_trace_recovers : byteTrace Block.reset [0x63, 0x01] = [.errorReport 99, .clear] := by decide
/-- E7. -/
theorem test_trace_end_to_end :
    byteTrace Block.reset [0x01, 0x02, 0x01, 0x04, 0x03, 0x02, 0x48, 0x49] =
      [.clear, .setCursor 1 4, .print [0x48, 0x49]] := by decide
/-- V13: the surplus byte is a tag. -/
theorem test_trace_oversized :
    byteTrace Block.reset ([0x03, 0x11] ++ sixteenA ++ [0x41]) = [.print sixteenA, .errorReport 0x41] := by decide
/-- V16: an incomplete Print. -/
theorem test_stall_print :
    ((blockAt [0x03, 0x05, 0x48, 0x49]).st, (blockAt [0x03, 0x05, 0x48, 0x49]).cnt) = (.prText, 2) := by decide
/-- V17: stale text stays in `TEXT`. -/
theorem test_stale_text :
    (blockAt [0x03, 0x03, 0x41, 0x42, 0x43, 0x03, 0x01, 0x5A]).text.toList.take 3 = [0x5A, 0x42, 0x43] := by decide
/-- P6 and V25: an incomplete CreateGlyph. -/
theorem test_stall_createGlyph :
    ((blockAt [0x05, 0x01, 0xAA, 0xBB]).st, (blockAt [0x05, 0x01, 0xAA, 0xBB]).cnt) = (.cgBmp, 2) := by decide

/-! ## The spec's edges -/

/-- CV1, edge 2: the command beat completes Clear and the offered byte stays. -/
theorem test_edge_command_beat :
    (((machineIn pendingClear [0x00] false true true).clock).trace,
      ((machineIn pendingClear [0x00] false true true).clock).rx,
      ((machineIn pendingClear [0x00] false true true).clock).blk.st) = ([.clear], [0x00], .awaitTag) := by decide
/-- CV2, edge 4: the driver holds the block in `ISSUE`. -/
theorem test_edge_driver_holds :
    ((machineIn pendingClear [0x01] false true false).clock).blk = pendingClear := by decide
/-- CV4, edge 3: reset wins over a byte offered, which stays. -/
theorem test_edge_reset_keeps_byte :
    (((machineIn (blockAt [0x02, 0x01]) [0x04] true true true).clock).blk,
      ((machineIn (blockAt [0x02, 0x01]) [0x04] true true true).clock).rx) = (Block.reset, [0x04]) := by decide
/-- CV5, edge 3: reset wins over the command beat. -/
theorem test_edge_reset_abandons :
    (((machineIn pendingClear [] true false true).clock).trace,
      ((machineIn pendingClear [] true false true).clock).blk.cmdValid) = ([], false) := by decide

/-! ## The host's vectors -/

/-- E3. -/
theorem test_host_clamps_index :
    sendCreateGlyph 9 [] = .ok [0x05, 0x07, 0, 0, 0, 0, 0, 0, 0, 0] := by rfl
/-- E6. -/
theorem test_host_hex :
    sendCreateGlyph 0 "1F 0A 00".toList = .ok [0x05, 0x00, 0x1F, 0x0A, 0, 0, 0, 0, 0, 0] := by rfl
/-- H7. -/
theorem test_host_hex_edge :
    sendCreateGlyph 12 "1F zz 0a 3 4 5 6 7 8 9".toList =
      .ok [0x05, 0x07, 0x1F, 0x00, 0x0A, 0x03, 0x04, 0x05, 0x06, 0x07] := by rfl
/-- E2's clamp, on 19 bytes. -/
theorem test_host_truncates : sendPrint (sixteenA ++ [1, 2, 3]) = [0x03, 0x10] ++ sixteenA := by decide
/-- H8. -/
theorem test_host_refuses : sendSetCursor 256 0 = .error .operandRefused := by rfl

/-! ## Witnesses: states and operands that meet each statement's hypotheses -/

theorem machineIn_undisturbed (b : Block) (bs : List Byte) (o c : Bool) :
    (machineIn b bs false o c).undisturbed := fun _ => ⟨rfl, rfl⟩

/-- The invariant from conditions that can be checked on a written-out block. -/
theorem inv_of {b : Block} (hl : b.len.toNat ≤ 16) (hc : b.cnt.toNat ≤ 16)
    (ht : b.st = .prText → b.cnt.toNat < b.len.toNat) (hb : b.st = .cgBmp → b.cnt.toNat < 8)
    (hg : b.st.packetTag = none ∨ b.st.packetTag = some b.tag)
    (ho : b.st = .issue → codeOfTag b.tag = some b.op) : b.Inv where
  len_le := hl
  cnt_le := hc
  text_cnt := ht
  bitmap_cnt := hb
  tag_of_packet t h := by rcases hg with hg | hg <;> rw [h] at hg <;> simp_all
  op_of_issue := ho

/-- A block after the given bytes meets the invariant, checked on its written-out state. -/
theorem blockAt_inv (bs : List Byte)
    (h : (blockAt bs).len.toNat ≤ 16 ∧ (blockAt bs).cnt.toNat ≤ 16 ∧
      ((blockAt bs).st = .prText → (blockAt bs).cnt.toNat < (blockAt bs).len.toNat) ∧
      ((blockAt bs).st = .cgBmp → (blockAt bs).cnt.toNat < 8) ∧
      ((blockAt bs).st.packetTag = none ∨ (blockAt bs).st.packetTag = some (blockAt bs).tag) ∧
      (blockAt bs).st ≠ .issue) : (blockAt bs).Inv :=
  inv_of h.1 h.2.1 h.2.2.1 h.2.2.2.1 h.2.2.2.2.1 fun hs => absurd hs h.2.2.2.2.2

/-- A block with the command of the packet `i` pending. -/
def pending (i : Instr) : Block := (encode i).foldl Block.acceptByte Block.reset

/-- The box glyph of V23. -/
def box : Vector Byte bitmapLen := #v[0x1F, 0x11, 0x11, 0x11, 0x11, 0x11, 0x1F, 0x00]

/-- One packet of each class, at the ends of their operands' ranges. -/
def packets : List Instr :=
  [.idle, .clear, .setCursor 0 255, .print 0 [], .print 16 sixteenA, .print 255 sixteenA, .printGlyph 8,
    .createGlyph 255 box] ++ [.unknown 6, .unknown 255]

theorem witness_DecodeOfEncodeIsTheInstruction : ∀ i ∈ packets, i.wf = true := by decide

theorem witness_EncodeOfDecodeIsTheBytes :
    decode [0x02, 0x05, 0x63, 0x01] = .ok (.setCursor 5 99, [0x01]) := by rfl

theorem witness_PartialPacketIsIncomplete :
    (Instr.setCursor 1 4).wf = true ∧ encode (.setCursor 1 4) = [] ++ [0x02, 0x01, 0x04] ∧
    encode (.setCursor 1 4) = (0x02#8 :: [0x01]) ++ [0x04] ∧ encode .idle = [] ++ [0x00] := by decide

theorem witness_PacketLengthsAreTheTables :
    (Instr.print 0 []).wf = true ∧ (0 : Byte).toNat = 0 ∧ (Instr.print 16 sixteenA).wf = true ∧
    16 ≤ (16 : Byte).toNat ∧ (Instr.print 255 sixteenA).wf = true ∧ 16 ≤ (255 : Byte).toNat ∧
    6 ≤ (6 : Byte).toNat ∧ 6 ≤ (255 : Byte).toNat := by decide

theorem witness_EachTagSelectsOneRow :
    decode (0x00#8 :: []) = .ok (.idle, []) ∧ decode (0x05#8 :: [0, 1, 2, 3, 4, 5, 6, 7, 8]) =
      .ok (.createGlyph 0 #v[1, 2, 3, 4, 5, 6, 7, 8], []) ∧ decode (0xFF#8 :: []) = .ok (.unknown 0xFF, []) :=
  ⟨rfl, rfl, rfl⟩

theorem witness_PrintLengthSaturatesAtSixteen :
    ([] : List Byte).length = min (0 : Byte).toNat 16 ∧ sixteenA.length = min (16 : Byte).toNat 16 ∧
    sixteenA.length = min (17 : Byte).toNat 16 ∧ sixteenA.length = min (255 : Byte).toNat 16 := by decide

/-- `PR_TEXT` with 15 of 16 bytes read. -/
def lastText : Block := blockAt ([0x03, 0x10] ++ List.replicate 15 0x41)
/-- `PR_TEXT` with 14 of 16 bytes read. -/
def lastButOneText : Block := blockAt ([0x03, 0x10] ++ List.replicate 14 0x41)
/-- `CG_BMP` with 7 of 8 bytes read. -/
def lastBitmap : Block := blockAt ([0x05, 0x00] ++ List.replicate 7 0x1F)
/-- `CG_BMP` with 6 of 8 bytes read. -/
def lastButOneBitmap : Block := blockAt ([0x05, 0x00] ++ List.replicate 6 0x1F)

theorem witness_ByteStepFollowsEveryArm :
    (Block.reset.st = .awaitTag ∧ 6 ≤ (6 : Byte).toNat ∧ 6 ≤ (255 : Byte).toNat) ∧
    (blockAt [0x02]).st = .scRow ∧ (blockAt [0x02, 0x01]).st = .scCol ∧ (blockAt [0x03]).st = .prLen ∧
    (blockAt [0x04]).st = .pgIdx ∧ (blockAt [0x05]).st = .cgIdx ∧
    (lastText.st = .prText ∧ lastText.cnt.toNat < lastText.len.toNat ∧ lastText.len.toNat ≤ 16 ∧
      lastText.cnt.toNat + 1 = lastText.len.toNat) ∧
    (lastButOneText.st = .prText ∧ lastButOneText.cnt.toNat < lastButOneText.len.toNat ∧
      lastButOneText.len.toNat ≤ 16 ∧ lastButOneText.cnt.toNat + 1 ≠ lastButOneText.len.toNat) ∧
    (lastBitmap.st = .cgBmp ∧ lastBitmap.cnt.toNat < 8 ∧ lastBitmap.cnt.toNat = 7) ∧
    (lastButOneBitmap.st = .cgBmp ∧ lastButOneBitmap.cnt.toNat < 8 ∧ lastButOneBitmap.cnt.toNat ≠ 7) := by decide

theorem witness_PayloadBytesAreData :
    ((blockAt [0x02]).Inv ∧ (blockAt [0x02]).st = .scRow) ∧
    ((blockAt [0x02, 0x01]).Inv ∧ (blockAt [0x02, 0x01]).st = .scCol) ∧
    ((blockAt [0x03]).Inv ∧ (blockAt [0x03]).st = .prLen) ∧
    (lastText.Inv ∧ lastText.st = .prText) ∧
    ((blockAt [0x04]).Inv ∧ (blockAt [0x04]).st = .pgIdx) ∧
    ((blockAt [0x05]).Inv ∧ (blockAt [0x05]).st = .cgIdx) ∧
    (lastBitmap.Inv ∧ lastBitmap.st = .cgBmp) :=
  ⟨⟨blockAt_inv _ (by decide), by decide⟩, ⟨blockAt_inv _ (by decide), by decide⟩,
    ⟨blockAt_inv _ (by decide), by decide⟩, ⟨blockAt_inv _ (by decide), by decide⟩,
    ⟨blockAt_inv _ (by decide), by decide⟩, ⟨blockAt_inv _ (by decide), by decide⟩,
    ⟨blockAt_inv _ (by decide), by decide⟩⟩

theorem witness_PacketReturnsToAwaitTagOnItsLastByte :
    Block.reset.st = .awaitTag ∧ (Instr.print 255 sixteenA).wf = true ∧
    encode (.print 255 sixteenA) = [0x03, 0xFF] ++ sixteenA ∧ sixteenA ≠ [] ∧ (Instr.idle).wf = true := by decide

theorem witness_PacketEndsWithItsOneCommand :
    Block.reset.st = .awaitTag ∧ (Instr.createGlyph 255 box).wf = true ∧
    encode (.createGlyph 255 box) = [0x05, 0xFF] ++ box.toList ∧ box.toList ≠ [] ∧ (Instr.idle).wf = true := by decide

theorem witness_WireRoundTrip :
    Block.reset.st = .awaitTag ∧ (Cmd.setCursor 200 17).enc = some [0x02, 0xC8, 0x11] ∧
    [0x02#8, 0xC8#8, 0x11#8] = [0x02#8] ++ [0xC8#8, 0x11#8] ∧ sixteenA.length ≤ 16 ∧
    hexBitmap "1F".toList = some (#v[0x1F, 0, 0, 0, 0, 0, 0, 0] : Vector Byte bitmapLen).toList ∧
    sendCreateGlyph 7 "1F".toList = .ok [0x05, 0x07, 0x1F, 0, 0, 0, 0, 0, 0, 0] ∧
    sendCreateGlyph 8 "1F".toList = .ok [0x05, 0x07, 0x1F, 0, 0, 0, 0, 0, 0, 0] :=
  ⟨rfl, rfl, rfl, by decide, rfl, rfl, rfl⟩

theorem witness_TraceFromBoundaryIgnoresRegisters :
    Block.reset.st = .awaitTag ∧ (blockAt [0x03, 0x03, 0x41, 0x42, 0x43]).st = .awaitTag ∧
    blockAt [0x03, 0x03, 0x41, 0x42, 0x43] ≠ Block.reset := by decide

theorem witness_PacketStreamTracesInOrder :
    Block.reset.st = .awaitTag ∧ ∀ i ∈ packets, i.wf = true := by decide

theorem witness_OversizedPrintDesynchronises :
    Block.reset.st = .awaitTag ∧ 16 < (17 : Byte).toNat ∧ 16 < (255 : Byte).toNat ∧ sixteenA.length = 16 ∧
    6 ≤ (6 : Byte).toNat ∧ 6 ≤ (255 : Byte).toNat ∧ 2 ≤ (2 : Byte).toNat ∧ (5 : Byte).toNat ≤ 5 := by decide

theorem witness_IdleWritesTagOnly : Block.reset.st = .awaitTag := rfl

theorem witness_ClearIssuesClear :
    exec .clear State.reset = .next { State.reset with blk := pending .clear } ∧ Block.reset.st = .awaitTag :=
  ⟨rfl, rfl⟩

theorem witness_SetCursorIssuesItsBytes :
    exec (.setCursor 255 255) State.reset = .next { State.reset with blk := pending (.setCursor 255 255) } ∧
    Block.reset.st = .awaitTag := ⟨rfl, rfl⟩

theorem witness_PrintIssuesItsText :
    ([] : List Byte).length = min (0 : Byte).toNat 16 ∧ sixteenA.length = min (255 : Byte).toNat 16 ∧
    Block.reset.st = .awaitTag ∧ sixteenA = List.replicate 15 0x41 ++ [0x41] := by decide

theorem witness_PrintGlyphIssuesItsIndex :
    exec (.printGlyph 255) State.reset = .next { State.reset with blk := pending (.printGlyph 255) } ∧
    Block.reset.st = .awaitTag := ⟨rfl, rfl⟩

theorem witness_CreateGlyphIssuesItsBitmap :
    exec (.createGlyph 255 box) State.reset = .next { State.reset with blk := pending (.createGlyph 255 box) } ∧
    Block.reset.st = .awaitTag ∧ box.toList = box.toList.take 7 ++ [0x00] := ⟨rfl, rfl, rfl⟩

theorem witness_UnknownIssuesErrorReport :
    6 ≤ (6 : Byte).toNat ∧ 6 ≤ (255 : Byte).toNat ∧ Block.reset.st = .awaitTag ∧
    exec (.unknown 6) State.reset = .next { State.reset with blk := pending (.unknown 6) } :=
  ⟨by decide, by decide, rfl, rfl⟩

theorem witness_ExecLeavesSurroundingsAlone :
    exec .clear (machine [0x00] false true true) = .next (machineIn (pending .clear) [0x00] false true true) := rfl

theorem witness_ExecWritesOnlyItsRegisters :
    (Instr.print 1 [0x5A]).wf = true ∧
    exec (.print 1 [0x5A]) (machineIn (blockAt [0x03, 0x03, 0x41, 0x42, 0x43]) [] false true true) =
      .next (machineIn ((encode (.print 1 [0x5A])).foldl Block.acceptByte (blockAt [0x03, 0x03, 0x41, 0x42, 0x43]))
        [] false true true) ∧
    min (1 : Byte).toNat 16 ≤ 1 ∧ (∀ i ∈ packets, i.wf = true) := ⟨by decide, rfl, by decide, by decide⟩

theorem witness_NothingIsClearedBetweenPackets :
    ((machineIn pendingClear [] false true true).blk.st = .issue ∧
      ((machineIn pendingClear [] false true true).edgeAt 0).pins.rst = false ∧
      ((machineIn pendingClear [] false true true).edgeAt 0).pins.cmdReady = true) ∧
    Block.reset.st = .awaitTag ∧ (⟨false, none, true⟩ : Inputs).rst = false ∧
    (⟨false, none, true⟩ : Inputs).rx = none := by decide

theorem witness_ClockEdgeTakesTheFirstCase :
    (Block.reset.st ≠ .issue ∧ (byteStep Block.reset 0x00).2 = none ∧
      (byteStep Block.reset 0x01).2 = some .clear) ∧ pendingClear.st = .issue := by decide

theorem witness_NoByteIsTakenWhileIssuing :
    (machineIn pendingClear [0x01] false true true).blk.st = .issue ∧
    ((machineIn pendingClear [0x01] false true true).edgeAt 0).pins.rst = false ∧
    (machineIn pendingClear [0x01] false true true).rx.head? = some 0x01 := by decide

theorem witness_PortsAreIgnoredOutsideTheirStates :
    (⟨false, some 1, true⟩ : Inputs).rst = (⟨false, some 1, false⟩ : Inputs).rst ∧ Block.reset.st ≠ .issue ∧
    (⟨false, some 1, true⟩ : Inputs).rx = (⟨false, some 1, false⟩ : Inputs).rx ∧ pendingClear.st = .issue ∧
    (⟨false, some 1, true⟩ : Inputs).cmdReady = (⟨false, none, true⟩ : Inputs).cmdReady := by decide

theorem witness_EdgeWithoutBeatChangesNothing :
    (Block.reset.byteBeat ⟨false, none, true⟩ = none ∧ Block.reset.commandBeat ⟨false, none, true⟩ = false) ∧
    (pendingClear.byteBeat ⟨false, some 1, false⟩ = none ∧ pendingClear.commandBeat ⟨false, some 1, false⟩ = false) ∧
    Block.reset.clockEdge ⟨false, some 1, false⟩ ≠ Block.reset ∧
    Block.reset.byteBeat ⟨false, some 1, false⟩ = some 1 := by decide

theorem inv_pending (i : Instr)
    (h : (pending i).len.toNat ≤ 16 ∧ (pending i).cnt.toNat ≤ 16 ∧ (pending i).st = .issue ∧
      codeOfTag (pending i).tag = some (pending i).op) : (pending i).Inv :=
  .of_issue h.2.2.1 h.1 h.2.1 h.2.2.2

theorem witness_PortPresentsTheCodedCommand :
    ((pending .clear).Inv ∧ (pending .clear).st = .issue ∧ (pending .clear).op = 1) ∧
    ((pending (.setCursor 5 99)).Inv ∧ (pending (.setCursor 5 99)).st = .issue ∧ (pending (.setCursor 5 99)).op = 2) ∧
    ((pending (.print 255 sixteenA)).Inv ∧ (pending (.print 255 sixteenA)).st = .issue ∧
      (pending (.print 255 sixteenA)).op = 3) ∧
    ((pending (.printGlyph 8)).Inv ∧ (pending (.printGlyph 8)).st = .issue ∧ (pending (.printGlyph 8)).op = 4) ∧
    ((pending (.createGlyph 255 box)).Inv ∧ (pending (.createGlyph 255 box)).st = .issue ∧
      (pending (.createGlyph 255 box)).op = 5) ∧
    ((pending (.unknown 6)).Inv ∧ (pending (.unknown 6)).st = .issue ∧ (pending (.unknown 6)).op = 6) :=
  ⟨⟨inv_pending _ (by decide), by decide⟩, ⟨inv_pending _ (by decide), by decide⟩,
    ⟨inv_pending _ (by decide), by decide⟩, ⟨inv_pending _ (by decide), by decide⟩,
    ⟨inv_pending _ (by decide), by decide⟩, ⟨inv_pending _ (by decide), by decide⟩⟩

theorem witness_CommandCodesAreTheTable :
    (Instr.createGlyph 255 box).wf = true ∧ packetCommand (.createGlyph 255 box) = some (.defineGlyph 255 box) ∧
    (Instr.unknown 6).wf = true ∧ packetCommand (.unknown 6) = some (.errorReport 6) ∧
    (pending .clear).Inv ∧ (pending .clear).commandPort.cmdValid = true :=
  ⟨by decide, by decide, by decide, by decide, inv_pending _ (by decide), by decide⟩

theorem witness_IssuePresentsHoldsAndCompletes :
    (lastText.Inv ∧ lastText.st ≠ .issue ∧ (byteStep lastText 0x41).2 = some (.print sixteenA)) ∧
    ((machineIn pendingClear [] false true true).blk.st = .issue ∧
      ((machineIn pendingClear [] false true true).edgeAt 0).pins = ⟨false, true, true⟩ ∧
      ((machineIn pendingClear [] false true false).edgeAt 0).pins = ⟨false, true, false⟩) :=
  ⟨⟨blockAt_inv _ (by decide), by decide, rfl⟩, by decide⟩

theorem witness_BeatsAreExclusive :
    pendingClear.commandBeat ⟨false, some 1, true⟩ = true ∧ (⟨true, some 1, true⟩ : Inputs).rst = true := by decide

theorem witness_WaitingForAByteChangesNothing :
    (machineIn (blockAt [0x04]) [0x07] false false true).blk.st ≠ .issue ∧
    (∀ k, k < 3 → ((machineIn (blockAt [0x04]) [0x07] false false true).clocks k).inputs.rst = false ∧
      ((machineIn (blockAt [0x04]) [0x07] false false true).clocks k).inputs.rx = none) ∧
    ∀ k, k < 3 → ((machine [] false true true).clocks k).inputs.rst = false ∧
      ((machine [] false true true).clocks k).inputs.rx = none := by decide

theorem witness_TransportStallIsAWait :
    ((machineIn (blockAt [0x05]) [0x04] true true true).edgeAt 0).pins.rst = true ∧
    (Block.reset.st = .awaitTag ∧ (Instr.setCursor 1 4).wf = true ∧
      encode (.setCursor 1 4) = [0x02] ++ [0x01, 0x04]) ∧
    ((machineIn (blockAt [0x05, 0x01, 0xAA, 0xBB]) [] false true true).blk.st ≠ .issue ∧
      (machineIn (blockAt [0x05, 0x01, 0xAA, 0xBB]) [] false true true).rx = [] ∧
      (machineIn (blockAt [0x05, 0x01, 0xAA, 0xBB]) [] false true true).undisturbed) ∧
    ((blockAt [0x05, 0x01, 0xAA, 0xBB]).Inv ∧ (blockAt [0x05, 0x01, 0xAA, 0xBB]).st ≠ .awaitTag) :=
  ⟨rfl, by decide, ⟨by decide, rfl, machineIn_undisturbed _ _ _ _⟩, blockAt_inv _ (by decide), by decide⟩

theorem witness_DriverStallIsAWait :
    (machineIn pendingClear [0x01] false true false).blk.st = .issue ∧
    ∀ k, k < 3 → ((machineIn pendingClear [0x01] false true false).edgeAt k).pins.rst = false ∧
      ((machineIn pendingClear [0x01] false true false).edgeAt k).pins.cmdReady = false :=
  ⟨by decide, fun _ _ => ⟨rfl, rfl⟩⟩

theorem witness_ResetEdgeResetsEverything :
    ((machineIn (blockAt [0x02, 0x01]) [0x04] true true true).edgeAt 0).pins.rst = true ∧
    (machineIn (blockAt [0x02, 0x01]) [0x04] true true true).rx.head? = some 0x04 := by decide

theorem witness_ResetStateIsAsTheRuleLists :
    ((machineIn pendingClear [0x04] true true true).edgeAt 0).pins.rst = true := by decide

theorem witness_ResetMidPacketDiscardsIt :
    (machineIn (blockAt [0x02, 0x01]) [0x04] true true true).blk.st = .scCol ∧
    ((machineIn (blockAt [0x02, 0x01]) [0x04] true true true).edgeAt 0).pins.rst = true := by decide

theorem witness_ResetInIssueAbandonsTheCommand :
    (machineIn pendingClear [] true false true).blk.st = .issue ∧
    ((machineIn pendingClear [] true false true).edgeAt 0).pins.rst = true := by decide

theorem witness_OnlyUnknownTagsRaiseTheError :
    Block.reset.st ≠ .issue ∧ (byteStep Block.reset 6).2 = some (.errorReport 6) ∧
    (byteStep Block.reset 255).2 = some (.errorReport 255) ∧ (blockAt [0x02]).st ≠ .issue := by decide

theorem witness_ErrorEntrySavesNothing :
    Block.reset.st = .awaitTag ∧ 6 ≤ (6 : Byte).toNat ∧ 6 ≤ (255 : Byte).toNat := by decide

theorem witness_ErrorsAreReportedOneByOne :
    ((machineIn (pending (.unknown 99)) [0x63] false true true).blk.st = .issue ∧
      (machineIn (pending (.unknown 99)) [0x63] false true true).blk.op = 6 ∧
      ((machineIn (pending (.unknown 99)) [0x63] false true true).edgeAt 0).pins = ⟨false, true, true⟩) ∧
    Block.reset.st = .awaitTag ∧ ∀ t ∈ [0x06#8, 0x63#8, 0xFF#8], 6 ≤ t.toNat := by decide

theorem witness_StepRunsTheDecodedInstruction :
    (machine [0x02, 0x01, 0x04, 0x01] false true true).blk.st = .awaitTag ∧
    decode (machine [0x02, 0x01, 0x04, 0x01] false true true).burst = .ok (.setCursor 1 4, [0x01]) := ⟨rfl, rfl⟩

theorem witness_StepRunsAPacketOfferedWithoutGaps :
    (machine [0x02, 0x01, 0x04, 0x01] false true true).blk.st = .awaitTag ∧ (Instr.setCursor 1 4).wf = true ∧
    (machine [0x02, 0x01, 0x04, 0x01] false true true).rx = encode (.setCursor 1 4) ++ [0x01] ∧
    ∀ k, k < (Instr.setCursor 1 4).length →
      ((machine [0x02, 0x01, 0x04, 0x01] false true true).edgeAt k).pins.rst = false ∧
      ((machine [0x02, 0x01, 0x04, 0x01] false true true).edgeAt k).pins.offers = true ∧
      ((machine [0x02, 0x01, 0x04, 0x01] false true true).edgeAt k).arrival = none :=
  ⟨rfl, rfl, rfl, fun _ _ => ⟨rfl, rfl, rfl⟩⟩

theorem witness_PlacedWordIsRunByTheNextStep : decodeTableWord 24 0x040102 = some (.setCursor 1 4) := by decide

/-- A machine in `AWAIT_TAG` that holds `rx`, whose first edge streams and whose second is `e`. -/
def gapAfterTag (rx : List Byte) (e : Edge) : State :=
  { machine rx false true true with sched := [⟨⟨false, true, true⟩, none⟩, e] }

theorem witness_OtherStepsAreOneEdge :
    ((machineIn pendingClear [] false true true).blk.st ≠ .awaitTag ∧ (machine [] false true true).rx = [] ∧
      ((machine [1] true true true).edgeAt 0).pins.rst = true ∧
      ((machine [1] false false true).edgeAt 0).pins.offers = false ∧
      ({ machine [1] false true true with sched := [⟨⟨false, true, true⟩, some 2⟩] }.edgeAt 0).arrival ≠ none ∧
      decode (machine [0x02, 0x01] false true true).burst = .error (.incomplete 0x02)) ∧
    ((Instr.setCursor 1 4).wf = true ∧ encode (.setCursor 1 4) = [0x02] ++ [0x01, 0x04] ∧
      (machine [0x02] false true true).rx = [0x02] ++ [] ∧
      ((machine [0x02] false true true).edgeAt 0).streams = true ∧
      (gapAfterTag [0x02, 0x01, 0x04] ⟨⟨true, true, true⟩, none⟩).rx = [0x02] ++ [0x01, 0x04] ∧
      ((gapAfterTag [0x02, 0x01, 0x04] ⟨⟨true, true, true⟩, none⟩).edgeAt 0).streams = true ∧
      ((gapAfterTag [0x02, 0x01, 0x04] ⟨⟨true, true, true⟩, none⟩).edgeAt 1).pins.rst = true ∧
      ((gapAfterTag [0x02, 0x01, 0x04] ⟨⟨false, false, true⟩, none⟩).edgeAt 1).pins.offers = false ∧
      ((gapAfterTag [0x02, 0x01, 0x04] ⟨⟨false, true, true⟩, some 9⟩).edgeAt 1).arrival ≠ none) :=
  ⟨⟨by decide, by decide, by decide, by decide, by decide, rfl⟩, by decide⟩

theorem witness_ExecIsItsBytesOneByOne :
    (∀ i ∈ packets, i.wf = true) ∧ State.reset.blk.st = .awaitTag := by decide

theorem witness_StepKeepsTheInvariant :
    State.reset.Inv ∧ step State.reset = .next State.reset.clock ∧
    (machineIn lastText [0x41] false true true).Inv ∧
    step (machineIn lastText [0x41] false true true) = .next (machineIn lastText [0x41] false true true).clock :=
  ⟨Block.reset_inv, rfl, blockAt_inv _ (by decide), rfl⟩

theorem witness_ResetMeetsTheInvariant :
    ((machine [1] true true true).edgeAt 0).pins.rst = true := by decide

/-- A stream whose first edge offers nothing, under a driver and a source that are ready from then on. -/
def fair : State := State.fed [0x01, 0x63] [⟨⟨false, false, false⟩, none⟩] ⟨false, true, true⟩

theorem witness_CircuitAgreesWithByteLevel :
    fair.undisturbed ∧
    (∀ n, (fair.clocks n).blk.st = .issue → ∃ k, n ≤ k ∧ (fair.edgeAt k).pins.cmdReady = true) ∧
    (∀ n, (fair.clocks n).blk.st ≠ .issue → (fair.clocks n).rx ≠ [] →
      ∃ k, n ≤ k ∧ (fair.edgeAt k).pins.offers = true) ∧
    [Cmd.clear] <+: byteTrace Block.reset [0x01, 0x63] :=
  ⟨fun k => by cases k <;> exact ⟨rfl, rfl⟩, fun n _ => ⟨n + 1, Nat.le_succ n, rfl⟩,
    fun n _ _ => ⟨n + 1, Nat.le_succ n, rfl⟩, [.errorReport 0x63], rfl⟩

theorem witness_FairEnvironmentCompletesWithinABound :
    fair.undisturbed ∧ (∀ k, ∃ j, j ≤ 1 ∧ (fair.edgeAt (k + j)).pins.offers = true) ∧
    (∀ k, ∃ j, j ≤ 1 ∧ (fair.edgeAt (k + j)).pins.cmdReady = true) :=
  ⟨fun k => by cases k <;> exact ⟨rfl, rfl⟩, fun _ => ⟨1, le_rfl, rfl⟩, fun _ => ⟨1, le_rfl, rfl⟩⟩

/-- CV2: SetCursor with the driver ready at its third edge. -/
theorem witness_PacketOccupiesLengthPlusLatency :
    (Instr.setCursor 1 4).wf = true ∧ packetCommand (.setCursor 1 4) = some (.setCursor 1 4) ∧ 1 ≤ 3 ∧
    ∃ s : State, s.blk.st = .awaitTag ∧ s.rx = encode (.setCursor 1 4) ++ [0x01] ∧
      (∀ k, k < 3 → (s.edgeAt k).pins.rst = false ∧ (s.edgeAt k).pins.offers = true) ∧
      (∀ k, 3 ≤ k → k < 3 + 3 → (s.edgeAt k).pins.rst = false ∧
        (s.edgeAt k).pins.cmdReady = decide (k + 1 = 3 + 3)) := by
  refine ⟨rfl, rfl, by decide, { machine [0x02, 0x01, 0x04, 0x01] false true true with
    sched := List.replicate 5 ⟨⟨false, true, false⟩, none⟩ }, rfl, rfl, ?_, ?_⟩ <;> decide

theorem witness_ArrivalIsHeldOrLost :
    (∃ s : State, (s.edgeAt 0).arrival = some 0x01 ∧ s.rx.length ≤ Config.rxFifoDepth) ∧
    (∃ s : State, (s.edgeAt 0).arrival = some 0x01 ∧ Config.rxFifoDepth < s.rx.length) ∧
    ((machine [1] true true true).edgeAt 0).pins.rst = true ∧
    (machineIn pendingClear [1] false true true).blk.st = .issue :=
  ⟨⟨{ State.reset with sched := [⟨⟨false, true, true⟩, some 0x01⟩] }, rfl, Nat.zero_le _⟩,
    ⟨{ State.reset with rx := List.replicate (Config.rxFifoDepth + 1) 0x00,
                        sched := [⟨⟨false, true, true⟩, some 0x01⟩] }, rfl, by simp⟩, rfl, rfl⟩

theorem witness_SendPrintTruncatesToSixteen : Block.reset.st = .awaitTag := rfl

theorem witness_SendCreateGlyphClampsItsIndex :
    hexBitmap "1F 0A 00".toList = some [0x1F, 0x0A, 0, 0, 0, 0, 0, 0] ∧ (-1 : Int) < 0 := ⟨rfl, by decide⟩

theorem witness_HexBitmapPadsAndIgnores :
    (isSeparator ' ' = true ∧ isSeparator '\t' = true ∧ isSeparator '\r' = true) ∧
    (['1', 'F'] ≠ [] ∧ ∀ c ∈ ['1', 'F'], isSeparator c = false) ∧
    (hexDigit '0' = some 0 ∧ hexDigit '9' = some 9 ∧ hexDigit 'A' = some 10 ∧ hexDigit 'F' = some 15 ∧
      hexDigit 'a' = some 10 ∧ hexDigit 'f' = some 15 ∧ hexDigit 'G' = none) ∧
    (∀ c ∈ ['z', 'z'], hexDigit c = none) ∧
    ((∃ c ∈ ['1', 'F', 'F'], hexDigit c ≠ none) ∧ 2 < ['1', 'F', 'F'].length) ∧
    ((∃ c ∈ ['1', 'G'], hexDigit c ≠ none) ∧ ∃ c ∈ ['1', 'G'], hexDigit c = none) ∧
    (hexBitmap "1F 0A".toList = some [0x1F, 0x0A, 0, 0, 0, 0, 0, 0] ∧
      (splitTokens [] "1F 0A".toList)[1]? = some ['0', 'A'] ∧ (splitTokens [] "1F 0A".toList).length ≤ 2) :=
  ⟨⟨rfl, rfl, rfl⟩, ⟨by decide, by rintro c h; simp at h; rcases h with rfl | rfl <;> rfl⟩,
    ⟨rfl, rfl, rfl, rfl, rfl, rfl, rfl⟩, by rintro c h; simp at h; subst h; rfl,
    ⟨⟨'1', by simp, by simp [hexDigit]⟩, by simp⟩,
    ⟨⟨'1', by simp, by simp [hexDigit]⟩, 'G', by simp, rfl⟩, rfl, rfl, by decide⟩

theorem witness_HostSendsBytesOrRefuses :
    ((-1 : Int) < 0 ∨ 255 < (-1 : Int) ∨ (0 : Int) < 0 ∨ 255 < (0 : Int)) ∧
    ((0 : Int) < 0 ∨ 255 < (0 : Int) ∨ (256 : Int) < 0 ∨ 255 < (256 : Int)) ∧
    ((256 : Int) < 0 ∨ 255 < (256 : Int)) := by decide

end Sys2Proof.Tests
end

/-! # The block's registers between packets, and the command port (spec/10_state.md R29-R38) -/

namespace Sys2Proof.Machine

/-! ## No session state (R37)

Two blocks behave alike as long as they agree on what their state still reads before writing it again. At a packet
boundary that is nothing. -/

section Buffers

variable {n : Nat} {v w : Vector Byte n}

/-- The two buffers agree on their first `k` elements. -/
def PrefixEq (k : Nat) (v w : Vector Byte n) : Prop := ∀ j < k, v[j]? = w[j]?

theorem PrefixEq.zero : PrefixEq 0 v w := fun _ hj => absurd hj (Nat.not_lt_zero _)

theorem PrefixEq.mono {k m : Nat} (h : PrefixEq k v w) (hm : m ≤ k) : PrefixEq m v w :=
  fun j hj => h j (by omega)

/-- The same byte written right after the common elements is one more of them. -/
theorem PrefixEq.setIfInBounds {k : Nat} (h : PrefixEq k v w) (x : Byte) :
    PrefixEq (k + 1) (v.setIfInBounds k x) (w.setIfInBounds k x) := by
  intro j hj
  rw [Vector.getElem?_setIfInBounds, Vector.getElem?_setIfInBounds]
  by_cases hk : k = j
  · simp [hk]
  · simp [hk, h j (by omega)]

theorem PrefixEq.take_eq {k : Nat} (h : PrefixEq k v w) : v.toList.take k = w.toList.take k := by
  apply List.ext_getElem?
  intro j
  by_cases hj : j < k
  · simpa [List.getElem?_take_of_lt hj] using h j hj
  · rw [List.getElem?_take_eq_none (by omega), List.getElem?_take_eq_none (by omega)]

theorem PrefixEq.eq (h : PrefixEq n v w) : v = w := by
  have ht := h.take_eq
  rw [List.take_of_length_le (by simp), List.take_of_length_le (by simp)] at ht
  exact Vector.toList_inj.mp ht

end Buffers

/-- A counter never counts up by more than one, even where it wraps. -/
theorem Count.toNat_succ_le (c : Count) : (c + 1#5).toNat ≤ c.toNat + 1 := by
  rw [BitVec.toNat_add]
  exact Nat.mod_le _ _

theorem byteStep_issue {b : Block} {x : Byte} (h : b.st = .issue) : byteStep b x = (b, none) := by
  simp [byteStep, h]

/-- Two blocks in the same state that agree on every register this state still reads: the row while the column is
awaited, and in the two loops the operands and the bytes stored so far. -/
structure Block.LiveEq (b b' : Block) : Prop where
  st_eq : b'.st = b.st
  row_eq : b.st = .scCol → b'.row = b.row
  text_eq : b.st = .prText → b'.len = b.len ∧ b'.cnt = b.cnt ∧ PrefixEq b.cnt.toNat b'.text b.text
  bmp_eq : b.st = .cgBmp → b'.gidx = b.gidx ∧ b'.cnt = b.cnt ∧ PrefixEq b.cnt.toNat b'.bmp b.bmp

/-- The states in which the block reads no register before writing it. -/
def St.readsNothing : St → Bool
  | .scCol | .prText | .cgBmp => false
  | .awaitTag | .scRow | .prLen | .pgIdx | .cgIdx | .issue => true

theorem Block.LiveEq.of_readsNothing {b b' : Block} (h : b'.st = b.st) (hv : b.st.readsNothing = true) :
    b.LiveEq b' := by
  refine ⟨h, fun hs => ?_, fun hs => ?_, fun hs => ?_⟩ <;> rw [hs] at hv <;> cases hv

/-- A tag byte writes `TAG` and `ST`; the next state and what is put out depend on the tag only, and the next state
reads no register (R73). -/
theorem tagStep_shape (x : Byte) :
    ∃ (v : St) (c : Option Cmd), v.readsNothing = true ∧ ∀ b, tagStep b x = ((b.setTag x).setSt v, c) := by
  rcases tag_cases x with rfl | rfl | rfl | rfl | rfl | rfl | hx
  · exact ⟨_, _, rfl, fun _ => tagStep_idle⟩
  · exact ⟨_, _, rfl, fun _ => tagStep_clear⟩
  · exact ⟨_, _, rfl, fun _ => tagStep_setCursor⟩
  · exact ⟨_, _, rfl, fun _ => tagStep_print⟩
  · exact ⟨_, _, rfl, fun _ => tagStep_printGlyph⟩
  · exact ⟨_, _, rfl, fun _ => tagStep_createGlyph⟩
  · exact ⟨_, _, rfl, fun _ => tagStep_unknown hx⟩

/-- Two byte-level steps put out the same, and their next blocks are alike again. -/
def SameStep (r r' : Block × Option Cmd) : Prop := r'.2 = r.2 ∧ r.1.LiveEq r'.1

/-- Steps into a state that reads nothing need only put out the same. -/
theorem SameStep.of_readsNothing {a a' : Block} {v : St} {c c' : Option Cmd} (hv : v.readsNothing = true)
    (hc : c' = c) : SameStep (a.setSt v, c) (a'.setSt v, c') := ⟨hc, .of_readsNothing rfl hv⟩

section

variable {b b' : Block} (x : Byte)

theorem tagStep_same (b b' : Block) : SameStep (tagStep b x) (tagStep b' x) := by
  obtain ⟨v, c, hv, ht⟩ := tagStep_shape x
  rw [ht, ht]
  exact .of_readsNothing hv rfl

/-- The length byte starts the text loop with the same operands and no byte stored. -/
theorem printLengthStep_same (b b' : Block) : SameStep (printLengthStep b x) (printLengthStep b' x) := by
  by_cases hx : x = 0#8
  · subst hx
    rw [printLengthStep_zero, printLengthStep_zero]
    exact .of_readsNothing rfl rfl
  · rw [printLengthStep_pos hx, printLengthStep_pos hx]
    exact ⟨rfl, rfl, nofun, fun _ => ⟨rfl, rfl, .zero⟩, nofun⟩

/-- A text byte goes to the same place in both buffers; the last one puts out the common front. -/
theorem printTextStep_same (hs : b.st = .prText) (h : b.LiveEq b') :
    SameStep (printTextStep b x) (printTextStep b' x) := by
  obtain ⟨hlen, hcnt, htext⟩ := h.text_eq hs
  have hnext := (htext.setIfInBounds x).mono (Count.toNat_succ_le b.cnt)
  simp only [printTextStep, Block.setCnt_cnt, Block.setCnt_len, Block.writeText_len, hcnt, hlen]
  by_cases hlast : b.cnt + 1#5 = b.len
  · have htake := hnext.take_eq
    rw [hlast] at htake
    simp only [hlast, ↓reduceIte]
    exact .of_readsNothing rfl (by simpa [Block.textPrefix, hlen] using htake)
  · simp only [hlast, ↓reduceIte]
    exact ⟨rfl, h.st_eq, by simp [hs], fun _ => ⟨hlen, rfl, hnext⟩, by simp [hs]⟩

/-- A bitmap byte goes to the same place in both buffers; the last one puts out the whole common bitmap. -/
theorem bitmapStep_same (hs : b.st = .cgBmp) (h : b.LiveEq b') :
    SameStep (bitmapStep b x) (bitmapStep b' x) := by
  obtain ⟨hgidx, hcnt, hbmp⟩ := h.bmp_eq hs
  have hnext := (hbmp.setIfInBounds x).mono (Count.toNat_succ_le b.cnt)
  simp only [bitmapStep, Block.setCnt_cnt, hcnt]
  by_cases hlast : (b.cnt + 1#5).toNat = bitmapLen
  · rw [hlast] at hnext
    simp only [hlast, ↓reduceIte]
    exact .of_readsNothing rfl (by simp [hgidx, hnext.eq])
  · simp only [hlast, ↓reduceIte]
    exact ⟨rfl, h.st_eq, by simp [hs], by simp [hs], fun _ => ⟨hgidx, rfl, hnext⟩⟩

variable {x}

/-- One byte keeps two blocks alike, and they put out the same. -/
theorem Block.LiveEq.sameStep (h : b.LiveEq b') (x : Byte) : SameStep (byteStep b x) (byteStep b' x) := by
  have hst := h.st_eq
  cases hs : b.st with
  | awaitTag => rw [byteStep_awaitTag hs, byteStep_awaitTag (hst.trans hs)]; exact tagStep_same x b b'
  | scRow =>
    rw [byteStep_scRow hs, byteStep_scRow (hst.trans hs)]
    exact ⟨rfl, rfl, fun _ => rfl, nofun, nofun⟩
  | scCol =>
    rw [byteStep_scCol hs, byteStep_scCol (hst.trans hs), h.row_eq hs]
    exact .of_readsNothing rfl rfl
  | prLen => rw [byteStep_prLen hs, byteStep_prLen (hst.trans hs)]; exact printLengthStep_same x b b'
  | prText => rw [byteStep_prText hs, byteStep_prText (hst.trans hs)]; exact printTextStep_same x hs h
  | pgIdx =>
    rw [byteStep_pgIdx hs, byteStep_pgIdx (hst.trans hs)]
    exact .of_readsNothing rfl rfl
  | cgIdx =>
    rw [byteStep_cgIdx hs, byteStep_cgIdx (hst.trans hs)]
    exact ⟨rfl, rfl, nofun, nofun, fun _ => ⟨rfl, rfl, .zero⟩⟩
  | cgBmp => rw [byteStep_cgBmp hs, byteStep_cgBmp (hst.trans hs)]; exact bitmapStep_same x hs h
  | issue =>
    rw [byteStep_issue hs, byteStep_issue (hst.trans hs)]
    exact ⟨rfl, h⟩

/-- Two blocks that are alike put out the same commands for every byte stream. -/
theorem Block.LiveEq.byteTrace_eq (bs : List Byte) (h : b.LiveEq b') : byteTrace b bs = byteTrace b' bs := by
  induction bs generalizing b b' with
  | nil => rfl
  | cons x xs ih =>
    obtain ⟨hout, hnext⟩ := h.sameStep x
    rw [byteTrace, byteTrace, hout, ih hnext]

end

/-- Settles O13: at a packet boundary two blocks are alike whatever their registers hold, and every byte keeps two
blocks alike. -/
theorem traceFromBoundaryIgnoresRegisters : Obligations.TraceFromBoundaryIgnoresRegisters := by
  intro b b' bs h h'
  exact (Block.LiveEq.of_readsNothing (h'.trans h.symm) (by rw [h]; rfl)).byteTrace_eq bs

/-! ## Nothing is cleared between packets (R38) -/

/-- The tag byte leaves every register but `TAG`, `ST` and `OP`. -/
theorem Block.acceptByte_awaitTag_frame {b : Block} (h : b.st = .awaitTag) (x : Byte) :
    b.acceptByte x =
      { b with tag := (b.acceptByte x).tag, st := (b.acceptByte x).st, op := (b.acceptByte x).op } := by
  obtain ⟨v, c, -, ht⟩ := tagStep_shape x
  have hb : byteStep b x = ((b.setTag x).setSt v, c) := (byteStep_awaitTag h).trans (ht b)
  cases c with
  | none => rw [Block.acceptByte_none (by rw [hb]), hb]; rfl
  | some c => rw [Block.acceptByte_some (c := c) (by rw [hb]), hb]; rfl

/-- At byte level a whole Print packet stores its text and ends at a packet boundary (R88). -/
theorem byteRun_print {b : Block} (h : b.st = .awaitTag) {declared : Byte} {text : List Byte}
    (hlen : text.length = Instr.textLength declared) :
    byteRun b (tagPrint :: declared :: text) = (b.storePrint declared text).setSt .awaitTag := by
  have htag : byteStep b tagPrint = ((b.setTag tagPrint).setSt .prLen, none) := byteStep_awaitTag h
  rw [byteRun, htag, byteRun, byteStep_prLen rfl]
  by_cases hd : declared = 0#8
  · subst hd
    obtain rfl : text = [] := List.length_eq_zero_iff.mp hlen
    rfl
  · have hne : text ≠ [] := by
      rintro rfl
      exact hd (clampLength_eq_zero.mp (BitVec.eq_of_toNat_eq (by simpa using hlen.symm)))
    rw [printLengthStep_pos hd, (text_loop_last _ text rfl (by simp) hne (by simpa using hlen)).1]
    rfl

/-- R38's example: the bytes of a longer text stay behind those of the shorter one printed after it. -/
theorem byteRun_print_three_then_one {b : Block} (h : b.st = .awaitTag) (x y z w : Byte) :
    byteRun b [tagPrint, 3#8, x, y, z, tagPrint, 1#8, w] =
      (((b.storePrint 3#8 [x, y, z]).setSt .awaitTag).storePrint 1#8 [w]).setSt .awaitTag := by
  change byteRun b ([tagPrint, 3#8, x, y, z] ++ [tagPrint, 1#8, w]) = _
  rw [byteRun_append, byteRun_print h rfl, byteRun_print rfl rfl]

/-- Settles O25: the frames of the command beat, of the tag byte and of waiting, and R38's example from the rule for
a whole Print. -/
theorem nothingIsClearedBetweenPackets : Obligations.NothingIsClearedBetweenPackets := by
  refine ⟨fun s hs hr hc => ?_, fun b x h => Block.acceptByte_awaitTag_frame h x, fun b i h hr hx => ?_, ?_⟩
  · rw [State.clock_blk, Block.clockEdge_complete hr hs hc]
    rfl
  · exact Block.clockEdge_wait hr (by rw [h]; nofun) hx
  · rintro b x y z w h after rfl
    rw [byteRun_print_three_then_one h x y z w]
    have hstale (j : Nat) (hj : 1 ≤ j) (hj' : j < 3) :
        (storeBytes (storeBytes b.text 0 [x, y, z]) 0 [w])[j]? = [x, y, z][j]? :=
      (storeBytes_above _ 0 j [w] hj).trans (storeBytes_stored _ 0 j _ (Nat.zero_le j) hj' (hj'.trans (by decide)))
    exact ⟨storeBytes_stored _ 0 0 [w] le_rfl Nat.zero_lt_one (by decide), hstale 1 (by decide) (by decide),
      hstale 2 (by decide) (by decide), rfl⟩

/-! ## The command port (R31, R32) -/

section

variable {b : Block}

theorem Block.commandOfOp_clear (h : b.op = 1#3) : b.commandOfOp = some .clear := by simp [commandOfOp, h]
theorem Block.commandOfOp_setCursor (h : b.op = 2#3) : b.commandOfOp = some (.setCursor b.row b.col) := by
  simp [commandOfOp, h]
theorem Block.commandOfOp_print (h : b.op = 3#3) : b.commandOfOp = some (.print b.textPrefix) := by
  simp [commandOfOp, h]
theorem Block.commandOfOp_printGlyph (h : b.op = 4#3) : b.commandOfOp = some (.printGlyph b.gidx) := by
  simp [commandOfOp, h]
theorem Block.commandOfOp_defineGlyph (h : b.op = 5#3) : b.commandOfOp = some (.defineGlyph b.gidx b.bmp) := by
  simp [commandOfOp, h]
theorem Block.commandOfOp_errorReport (h : b.op = 6#3) : b.commandOfOp = some (.errorReport b.tag) := by
  simp [commandOfOp, h]

/-- On a valid port `cmd_op` is neither "none" nor the reserved code (R31). -/
theorem Block.Inv.op_ne (hi : b.Inv) (hs : b.st = .issue) : b.op ≠ 0#3 ∧ b.op ≠ 7#3 :=
  codeOfTag_ne (hi.op_of_issue hs)

end

/-- Settles O30: in `ISSUE` the port presents what `OP` stands for, code by code; the invariant excludes 0 and 7. -/
theorem portPresentsTheCodedCommand : Obligations.PortPresentsTheCodedCommand := by
  intro b hi hs
  rw [Block.presented_of_issue hs]
  exact ⟨(Block.cmdValid_eq_true b).mpr hs, rfl, Block.commandOfOp_clear, Block.commandOfOp_setCursor,
    Block.commandOfOp_print, Block.commandOfOp_printGlyph, Block.commandOfOp_defineGlyph, Block.commandOfOp_errorReport,
    hi.op_ne hs⟩

/-- No command has the code of "none" or the reserved code (R31). -/
theorem Cmd.code_ne (c : Cmd) : c.code ≠ 0#3 ∧ c.code ≠ 7#3 := by
  cases c <;> exact ⟨by simp [Cmd.code], by simp [Cmd.code]⟩

/-- A packet that issues a command begins with the tag that leads to the command's code. -/
theorem codeOfTag_of_packetCommand {i : Instr} {c : Cmd} (hw : i.wf = true) (hc : packetCommand i = some c) :
    ∃ tag payload, encode i = tag :: payload ∧ codeOfTag tag = some c.code := by
  cases i with
  | idle => cases hc
  | clear => cases hc; exact ⟨tagClear, _, rfl, rfl⟩
  | setCursor row col => cases hc; exact ⟨tagSetCursor, _, rfl, rfl⟩
  | print declared text => cases hc; exact ⟨tagPrint, _, rfl, rfl⟩
  | printGlyph index => cases hc; exact ⟨tagPrintGlyph, _, rfl, rfl⟩
  | createGlyph index bitmap => cases hc; exact ⟨tagCreateGlyph, _, rfl, rfl⟩
  | unknown tag => cases hc; exact ⟨tag, _, rfl, codeOfTag_unknown (of_decide_eq_true hw)⟩

/-- The table of R31: codes 1 to 5 are the tags themselves, and every tag from 0x06 on has code 6. -/
theorem codeOfTag_eq_some {tag : Byte} {code : OpCode} (h : codeOfTag tag = some code) :
    (tag.toNat ≤ 5 → code.toNat = tag.toNat) ∧ (6 ≤ tag.toNat → code = 6#3) := by
  rcases tag_cases tag with rfl | rfl | rfl | rfl | rfl | rfl | ht
  · cases h
  · cases h; decide
  · cases h; decide
  · cases h; decide
  · cases h; decide
  · cases h; decide
  · rw [codeOfTag_unknown ht] at h
    have h5 : 5 < tag.toNat := ht
    exact ⟨fun hle => absurd hle (by omega), fun _ => (Option.some.inj h).symm⟩

/-- Settles O31: a packet's command has the code its tag leads to, and `codeOfTag` is the table. -/
theorem commandCodesAreTheTable : Obligations.CommandCodesAreTheTable := by
  refine ⟨Cmd.code_ne, fun i c hw hc => ?_, rfl, fun b hi hv => hi.op_ne ((Block.cmdValid_eq_true b).mp hv)⟩
  obtain ⟨tag, payload, henc, hcode⟩ := codeOfTag_of_packetCommand hw hc
  exact ⟨tag, payload, henc, codeOfTag_eq_some hcode⟩

end Sys2Proof.Machine

/-! # The encoding: the opcode table, the wire and the host (spec/30_encoding.md) -/

namespace Sys2Proof

/-! ## The opcode table (R52, R53) -/

theorem decodeSetCursor_ok {bs rest : List Byte} {i : Instr} (h : decodeSetCursor bs = .ok (i, rest)) :
    ∃ row col, i = .setCursor row col := by
  match bs with
  | row :: col :: _ => cases h; exact ⟨row, col, rfl⟩
  | [_] => cases h
  | [] => cases h

theorem decodePrint_ok {bs rest : List Byte} {i : Instr} (h : decodePrint bs = .ok (i, rest)) :
    ∃ declared text, i = .print declared text := by
  cases bs with
  | nil => cases h
  | cons declared bs =>
    rw [decodePrint] at h
    split at h
    · cases h; exact ⟨declared, _, rfl⟩
    · cases h

theorem decodePrintGlyph_ok {bs rest : List Byte} {i : Instr} (h : decodePrintGlyph bs = .ok (i, rest)) :
    ∃ index, i = .printGlyph index := by
  cases bs with
  | nil => cases h
  | cons index bs => cases h; exact ⟨index, rfl⟩

theorem decodeCreateGlyph_ok {bs rest : List Byte} {i : Instr} (h : decodeCreateGlyph bs = .ok (i, rest)) :
    ∃ index bitmap, i = .createGlyph index bitmap := by
  cases bs with
  | nil => cases h
  | cons index bs =>
    rw [decodeCreateGlyph] at h
    split at h
    · cases h; exact ⟨index, _, rfl⟩
    · cases h

/-- The six UNKNOWN rows share out the tags from 0x06 on: each such tag is taken by one row, an UNKNOWN one. -/
theorem opcodeTable_unknown {tag : Byte} (h : tagCreateGlyph.toNat < tag.toNat) :
    ∃ row, opcodeTable.filter (·.takes tag) = [row] ∧ row.mnemonic = "UNKNOWN" := by
  have key : ∀ tag : Byte, tagCreateGlyph.toNat < tag.toNat →
      (opcodeTable.filter (·.takes tag)).map OpcodeRow.mnemonic = ["UNKNOWN"] := by decide
  exact List.map_eq_singleton_iff.mp (key tag h)

/-- Settles O5: by tag class, the table's one row and the decoder's one packet class. -/
theorem eachTagSelectsOneRow : Obligations.EachTagSelectsOneRow := by
  intro tag
  rcases tag_cases tag with rfl | rfl | rfl | rfl | rfl | rfl | ht
  · exact ⟨⟨"IDLE", wholeTag, tagIdle⟩, rfl, fun bs i rest h => by cases h; exact ⟨rfl, rfl⟩⟩
  · exact ⟨⟨"CLEAR", wholeTag, tagClear⟩, rfl, fun bs i rest h => by cases h; exact ⟨rfl, rfl⟩⟩
  · refine ⟨⟨"SET_CURSOR", wholeTag, tagSetCursor⟩, rfl, fun bs i rest h => ?_⟩
    obtain ⟨row, col, rfl⟩ := decodeSetCursor_ok h
    exact ⟨rfl, rfl⟩
  · refine ⟨⟨"PRINT", wholeTag, tagPrint⟩, rfl, fun bs i rest h => ?_⟩
    obtain ⟨declared, text, rfl⟩ := decodePrint_ok h
    exact ⟨rfl, rfl⟩
  · refine ⟨⟨"PRINT_GLYPH", wholeTag, tagPrintGlyph⟩, rfl, fun bs i rest h => ?_⟩
    obtain ⟨index, rfl⟩ := decodePrintGlyph_ok h
    exact ⟨rfl, rfl⟩
  · refine ⟨⟨"CREATE_GLYPH", wholeTag, tagCreateGlyph⟩, rfl, fun bs i rest h => ?_⟩
    obtain ⟨index, bitmap, rfl⟩ := decodeCreateGlyph_ok h
    exact ⟨rfl, rfl⟩
  · obtain ⟨row, hrow, hname⟩ := opcodeTable_unknown ht
    refine ⟨row, hrow, fun bs i rest h => ?_⟩
    rw [decode_unknown ht] at h
    cases h
    exact ⟨hname.symm, rfl⟩

/-! ## Packet lengths and Print's length byte (R55, R57) -/

theorem encode_print_length {declared : Byte} {text : List Byte} (hw : (Instr.print declared text).wf = true) :
    (encode (.print declared text)).length = 2 + min declared.toNat 16 :=
  (Laws.EncodedLength.print declared text hw).1

/-- Settles O4: Print's length from the per-instruction law, the two ends of its range by arithmetic. -/
theorem packetLengthsAreTheTables : Obligations.PacketLengthsAreTheTables := by
  refine ⟨rfl, rfl, fun _ _ => rfl, fun declared text hw => ?_, fun _ => rfl, fun index bitmap => ?_,
    fun tag rest ht => ⟨rfl, decode_unknown ht rest⟩⟩
  · rw [encode_print_length hw]
    exact ⟨rfl, by omega, by omega⟩
  · exact (Laws.EncodedLength.createGlyph index bitmap rfl).1

/-- Settles O7: the clamp's value, and the inverse of the Print decoder. -/
theorem printLengthSaturatesAtSixteen : Obligations.PrintLengthSaturatesAtSixteen :=
  ⟨Machine.clampLength_toNat, rfl, decodePrint_append⟩

end Sys2Proof

namespace Sys2Proof.Machine

/-! ## A whole packet at byte level (R74, R77) -/

/-- Fed `bytes`, the block puts out nothing before the last byte, the command `c`, if any, on it, and is then at a
packet boundary. -/
structure Block.Delivers (b : Block) (bytes : List Byte) (c : Option Cmd) : Prop where
  quiet : byteTrace b bytes.dropLast = []
  trace : byteTrace b bytes = c.toList
  boundary : (byteRun b bytes).st = .awaitTag

section

variable {b : Block}

/-- What is put out for a front of a byte stream is a front of what is put out for the stream. -/
theorem byteTrace_prefix {front bytes : List Byte} (h : front <+: bytes) : byteTrace b front <+: byteTrace b bytes := by
  obtain ⟨back, rfl⟩ := h
  rw [byteTrace_append]
  exact List.prefix_append _ _

/-- Nothing is put out for any proper front. -/
theorem Block.Delivers.quiet_front {bytes front back : List Byte} {c : Option Cmd} (hd : b.Delivers bytes c)
    (hb : bytes = front ++ back) (hne : back ≠ []) : byteTrace b front = [] := by
  have hpre : front <+: bytes.dropLast := by
    rw [hb, List.dropLast_append_of_ne_nil hne]
    exact List.prefix_append _ _
  exact List.prefix_nil.mp (hd.quiet ▸ byteTrace_prefix hpre)

variable (h : b.st = .awaitTag)
include h

theorem byteTrace_awaitTag (x : Byte) (xs : List Byte) :
    byteTrace b (x :: xs) = (tagStep b x).2.toList ++ byteTrace (tagStep b x).1 xs := by
  rw [byteTrace, byteStep_awaitTag h]

theorem byteRun_awaitTag (x : Byte) (xs : List Byte) : byteRun b (x :: xs) = byteRun (tagStep b x).1 xs := by
  rw [byteRun, byteStep_awaitTag h]

/-- A packet of one byte: its tag step says it all. -/
theorem delivers_singleton {x : Byte} {c : Option Cmd} (ht : tagStep b x = ((b.setTag x).setSt .awaitTag, c)) :
    b.Delivers [x] c :=
  ⟨rfl, by rw [byteTrace_awaitTag h, ht]; exact List.append_nil _, by rw [byteRun_awaitTag h, ht]; rfl⟩

theorem delivers_setCursor (row col : Byte) :
    b.Delivers [tagSetCursor, row, col] (some (.setCursor row col)) :=
  ⟨byteTrace_awaitTag h _ [row], byteTrace_awaitTag h _ [row, col], by rw [byteRun_awaitTag h]; rfl⟩

theorem delivers_printGlyph (index : Byte) : b.Delivers [tagPrintGlyph, index] (some (.printGlyph index)) :=
  ⟨byteTrace_awaitTag h _ [], byteTrace_awaitTag h _ [index], by rw [byteRun_awaitTag h]; rfl⟩

/-- At byte level a whole Print packet puts out the Print of its text (R88). -/
theorem byteTrace_print {declared : Byte} {text : List Byte} (hlen : text.length = Instr.textLength declared) :
    byteTrace b (tagPrint :: declared :: text) = [.print text] := by
  rw [byteTrace_awaitTag h, tagStep_print, byteTrace, byteStep_prLen rfl]
  by_cases hd : declared = 0#8
  · subst hd
    obtain rfl : text = [] := List.length_eq_zero_iff.mp hlen
    rfl
  · have hne : text ≠ [] := by
      rintro rfl
      exact hd (clampLength_eq_zero.mp (BitVec.eq_of_toNat_eq (by simpa using hlen.symm)))
    have hmax : text.length ≤ maxText := hlen ▸ Nat.min_le_right _ _
    rw [printLengthStep_pos hd, (text_loop_last _ text rfl (by simp) hne (by simpa using hlen)).2]
    simpa [← hlen] using storeBytes_take b.text text hmax

theorem delivers_print {declared : Byte} {text : List Byte} (hlen : text.length = Instr.textLength declared) :
    b.Delivers (tagPrint :: declared :: text) (some (.print text)) := by
  refine ⟨?_, byteTrace_print h hlen, by rw [byteRun_print h hlen]; rfl⟩
  cases text with
  | nil => exact byteTrace_awaitTag h _ []
  | cons x xs => exact (print_front b h declared (x :: xs).dropLast (by simp [← hlen])).2

theorem delivers_createGlyph (index : Byte) (bitmap : Vector Byte bitmapLen) :
    b.Delivers (tagCreateGlyph :: index :: bitmap.toList) (some (.defineGlyph index bitmap)) := by
  have hne : bitmap.toList ≠ [] := by simp [← List.length_eq_zero_iff]
  obtain ⟨hrun, htrace⟩ := bitmap_loop_last
    (((((b.setTag tagCreateGlyph).setSt .cgIdx).setGidx index).setCnt 0#5).setSt .cgBmp) bitmap.toList rfl hne
    (by simp)
  refine ⟨?_, ?_, ?_⟩
  · rw [List.dropLast_cons_of_ne_nil (by simp), List.dropLast_cons_of_ne_nil hne]
    exact (createGlyph_front b h index bitmap.toList.dropLast (by simp)).2
  · rw [byteTrace_awaitTag h, tagStep_createGlyph, byteTrace, byteStep_cgIdx rfl, htrace]
    exact congrArg (fun v => [Cmd.defineGlyph index v]) (storeBytes_full b.bmp bitmap)
  · rw [byteRun_awaitTag h, tagStep_createGlyph, byteRun, byteStep_cgIdx rfl, hrun]
    rfl

/-- Every well-formed packet ends with its one command and at a packet boundary (R74, R77). -/
theorem delivers_encode {i : Instr} (hw : i.wf = true) : b.Delivers (encode i) (packetCommand i) := by
  cases i with
  | idle => exact delivers_singleton h tagStep_idle
  | clear => exact delivers_singleton h tagStep_clear
  | setCursor row col => exact delivers_setCursor h row col
  | print declared text => exact delivers_print h (eq_of_beq hw)
  | printGlyph index => exact delivers_printGlyph h index
  | createGlyph index bitmap => exact delivers_createGlyph h index bitmap
  | unknown tag => exact delivers_singleton h (tagStep_unknown (of_decide_eq_true hw))

end

/-! ## The wire encoding of a command (R61) -/

/-- A text length of at most 16 fits its length byte. -/
theorem toNat_lengthByte {n : Nat} (h : n ≤ maxText) : (BitVec.ofNat 8 n).toNat = n :=
  Nat.mod_eq_of_lt (Nat.lt_of_le_of_lt h (by decide))

/-- The wire encoding of a command is that of a well-formed packet which issues the command. -/
theorem Cmd.enc_eq_encode {c : Cmd} {bytes : List Byte} (he : c.enc = some bytes) :
    ∃ i : Instr, i.wf = true ∧ encode i = bytes ∧ packetCommand i = some c := by
  cases c with
  | clear => cases he; exact ⟨.clear, rfl, rfl, rfl⟩
  | setCursor row col => cases he; exact ⟨.setCursor row col, rfl, rfl, rfl⟩
  | print text =>
    rw [Cmd.enc] at he
    split at he
    · rename_i hlen
      cases he
      refine ⟨.print (BitVec.ofNat _ text.length) text, ?_, rfl, rfl⟩
      rw [Instr.wf, beq_iff_eq, Instr.textLength, toNat_lengthByte hlen, Nat.min_eq_left hlen]
    · cases he
  | printGlyph index => cases he; exact ⟨.printGlyph index, rfl, rfl, rfl⟩
  | defineGlyph index bitmap => cases he; exact ⟨.createGlyph index bitmap, rfl, rfl, rfl⟩
  | errorReport tag => cases he

/-- Every command but an error report has a wire encoding, texts up to 16 bytes. -/
theorem Cmd.enc_isSome {c : Cmd} (htext : ∀ text, c = .print text → text.length ≤ maxText)
    (herr : ∀ tag, c ≠ .errorReport tag) : c.enc.isSome := by
  cases c with
  | print text => rw [Cmd.enc, if_pos (htext text rfl)]; rfl
  | errorReport tag => exact absurd rfl (herr tag)
  | clear | setCursor | printGlyph | defineGlyph => rfl

/-! ## The host's operations (R62-R68) -/

theorem sendSetCursor_toNat (row col : Byte) : sendSetCursor row.toNat col.toNat = .ok [tagSetCursor, row, col] := by
  simp [sendSetCursor]

theorem sendGlyph_toNat (index : Byte) : sendGlyph index.toNat = .ok [tagPrintGlyph, index] := by simp [sendGlyph]

/-- One operand without a byte is enough for a refusal. -/
theorem sendSetCursor_refused {row col : Int} (h : byteOfInt row = none ∨ byteOfInt col = none) :
    sendSetCursor row col = .error .operandRefused := by
  rcases h with h | h
  · simp [sendSetCursor, h]
  · simp [sendSetCursor, h]

theorem sendGlyph_refused {index : Int} (h : byteOfInt index = none) : sendGlyph index = .error .operandRefused := by
  simp [sendGlyph, h]

theorem sendCreateGlyph_natCast (index : Nat) {text : List Char} {m : List Byte} (hm : hexBitmap text = some m) :
    sendCreateGlyph index text = .ok (tagCreateGlyph :: BitVec.ofNat _ (min index hostGlyphMax) :: m) := by
  simp [sendCreateGlyph, hm]

theorem sendCreateGlyph_negative {index : Int} (text : List Char) (h : index < 0) :
    sendCreateGlyph index text = .error .operandRefused := if_pos h

/-- `send_print` writes the wire encoding of the Print of the message's first 16 bytes (R64). -/
theorem enc_print_take (message : List Byte) : (Cmd.print (message.take maxText)).enc = some (sendPrint message) := by
  rw [Cmd.enc, if_pos (List.length_take_le _ _), List.length_take, Nat.min_comm]
  rfl

/-- Settles O60: byte operands have their byte, integers outside 0..255 have none. -/
theorem hostSendsBytesOrRefuses : Obligations.HostSendsBytesOrRefuses := by
  refine ⟨sendSetCursor_toNat, sendGlyph_toNat, fun row col h => sendSetCursor_refused ?_,
    fun index h => sendGlyph_refused (byteOfInt_none h), fun _ => rfl, rfl⟩
  rcases h with h | h | h
  · exact .inl (byteOfInt_none (.inl h))
  · exact .inl (byteOfInt_none (.inr h))
  · exact .inr (byteOfInt_none h)

/-- Settles O58. -/
theorem sendCreateGlyphClampsItsIndex : Obligations.SendCreateGlyphClampsItsIndex :=
  ⟨fun index _ _ hm => sendCreateGlyph_natCast index hm, fun _ text h => sendCreateGlyph_negative text h⟩

/-! ## The wire round trip (R70) -/

/-- The block's decoding inverts the wire encoding: an encoded command is the encoding of a packet that delivers it. -/
theorem delivers_enc {b : Block} {c : Cmd} {bytes : List Byte} (h : b.st = .awaitTag) (he : c.enc = some bytes) :
    b.Delivers bytes (some c) := by
  obtain ⟨i, hw, rfl, hc⟩ := Cmd.enc_eq_encode he
  exact hc ▸ delivers_encode h hw

/-- Settles O57: `send_print` writes an encoded Print, and the block returns what was encoded. -/
theorem sendPrintTruncatesToSixteen : Obligations.SendPrintTruncatesToSixteen := by
  intro message
  exact ⟨BitVec.ofNat _ (min message.length maxText), toNat_lengthByte (Nat.min_le_right _ _), rfl,
    fun b h => (delivers_enc h (enc_print_take message)).trace⟩

/-- Settles O12: encoded commands are delivered, and each host operation writes the encoding of its command, clamped. -/
theorem wireRoundTrip : Obligations.WireRoundTrip := by
  refine ⟨fun b c bytes h he => ?_, fun c => Cmd.enc_isSome, rfl, fun row col => ?_, fun index => ?_,
    fun message hlen => ?_, enc_print_take, fun index text bytes m hm hsend => ?_⟩
  · have hd := delivers_enc h he
    exact ⟨fun front back => hd.quiet_front, hd.trace, hd.boundary⟩
  · rw [sendSetCursor_toNat]; rfl
  · rw [sendGlyph_toNat]; rfl
  · have htake := enc_print_take message
    rwa [List.take_of_length_le hlen] at htake
  · rw [sendCreateGlyph_natCast index hm] at hsend
    cases hsend
    exact ⟨rfl, fun hle => by rw [Nat.min_eq_left hle]; rfl⟩

end Sys2Proof.Machine

/-! # The framer and the circuit (spec/40_framer.md) -/

namespace Sys2Proof.Machine

section

variable {b : Block} {x : Byte} {c : Cmd}

/-! ## What a byte-level step hands to the circuit -/

/-- The result of a byte-level step as the circuit takes it over: the block still receives; where a command is put out
the packet is over, and the command's code and the registers stand for the command (R32, R78). -/
structure FitsCircuit (r : Block × Option Cmd) : Prop where
  receiving : r.1.st ≠ .issue
  ended : ∀ c, r.2 = some c → r.1.st = .awaitTag
  shown : ∀ c, r.2 = some c → (r.1.issue c).commandOfOp = some c

theorem FitsCircuit.of_none (h : b.st ≠ .issue) : FitsCircuit (b, none) := ⟨h, nofun, nofun⟩

theorem FitsCircuit.of_some (h : (b.issue c).commandOfOp = some c) : FitsCircuit (b.setSt .awaitTag, some c) :=
  ⟨nofun, fun _ _ => rfl, fun _ hc => Option.some.inj hc ▸ h⟩

theorem tagStep_fitsCircuit (b : Block) (x : Byte) : FitsCircuit (tagStep b x) := by
  rcases tag_cases x with rfl | rfl | rfl | rfl | rfl | rfl | hx
  · exact .of_none nofun
  · exact .of_some (Block.commandOfOp_clear rfl)
  · exact .of_none nofun
  · exact .of_none nofun
  · exact .of_none nofun
  · exact .of_none nofun
  · rw [tagStep_unknown hx]
    exact .of_some (Block.commandOfOp_errorReport rfl)

theorem printLengthStep_fitsCircuit (b : Block) (x : Byte) : FitsCircuit (printLengthStep b x) := by
  by_cases hx : x = 0#8
  · subst hx
    exact .of_some (Block.commandOfOp_print rfl)
  · rw [printLengthStep_pos hx]
    exact .of_none nofun

theorem printTextStep_fitsCircuit (h : b.st ≠ .issue) (x : Byte) : FitsCircuit (printTextStep b x) := by
  rw [printTextStep]
  split
  · exact .of_some (Block.commandOfOp_print rfl)
  · exact .of_none h

theorem bitmapStep_fitsCircuit (h : b.st ≠ .issue) (x : Byte) : FitsCircuit (bitmapStep b x) := by
  rw [bitmapStep]
  split
  · exact .of_some (Block.commandOfOp_defineGlyph rfl)
  · exact .of_none h

theorem byteStep_fitsCircuit (h : b.st ≠ .issue) (x : Byte) : FitsCircuit (byteStep b x) := by
  cases hs : b.st with
  | awaitTag => rw [byteStep_awaitTag hs]; exact tagStep_fitsCircuit b x
  | scRow => rw [byteStep_scRow hs]; exact .of_none nofun
  | scCol => rw [byteStep_scCol hs]; exact .of_some (Block.commandOfOp_setCursor rfl)
  | prLen => rw [byteStep_prLen hs]; exact printLengthStep_fitsCircuit b x
  | prText => rw [byteStep_prText hs]; exact printTextStep_fitsCircuit h x
  | pgIdx => rw [byteStep_pgIdx hs]; exact .of_some (Block.commandOfOp_printGlyph rfl)
  | cgIdx => rw [byteStep_cgIdx hs]; exact .of_none nofun
  | cgBmp => rw [byteStep_cgBmp hs]; exact bitmapStep_fitsCircuit h x
  | issue => exact absurd hs h

/-- After a byte beat the port presents exactly what the step put out (R80). -/
theorem Block.presented_acceptByte (h : b.st ≠ .issue) (x : Byte) :
    (b.acceptByte x).presented = (byteStep b x).2 := by
  have hfit := byteStep_fitsCircuit h x
  cases hc : (byteStep b x).2 with
  | none => rw [acceptByte_none hc, presented_of_ne_issue hfit.receiving]
  | some c => rw [acceptByte_some hc, presented_of_issue rfl, hfit.shown c hc]

/-! ## The invariant at byte level (R73) -/

theorem Block.Inv.byteStep (hi : b.Inv) (h : b.st ≠ .issue) (x : Byte) : (byteStep b x).1.Inv := by
  have hacc := hi.acceptByte h x
  cases hc : (Machine.byteStep b x).2 with
  | none => rwa [acceptByte_none hc] at hacc
  | some c =>
    rw [acceptByte_some hc] at hacc
    exact .of_awaitTag ((byteStep_fitsCircuit h x).ended c hc) hacc.len_le hacc.cnt_le

theorem Block.Inv.byteRun (hi : b.Inv) (h : b.st ≠ .issue) (bs : List Byte) : (byteRun b bs).Inv := by
  induction bs generalizing b with
  | nil => exact hi
  | cons x xs ih => exact ih (hi.byteStep h x) (byteStep_fitsCircuit h x).receiving

/-! ## The step function, arm by arm (R73) -/

/-- A counter one below a length counts up to it. -/
theorem Count.succ_eq_of_toNat {c l : Count} (h : c.toNat + 1 = l.toNat) : c + 1#5 = l := by
  have hl := l.isLt
  exact BitVec.eq_of_toNat_eq (by rw [Count.toNat_succ c (by omega), h])

/-- Settles O8: each arm from the lemma about its state, the bounds from the invariant of every byte-level run, the
trace from the rule for appended streams. -/
theorem byteStepFollowsEveryArm : Obligations.ByteStepFollowsEveryArm := by
  refine ⟨fun b x => ⟨fun h => ?_, byteStep_scRow, byteStep_scCol, fun h => ?_, fun h hlt hle => ?_, byteStep_pgIdx,
    byteStep_cgIdx, fun h hlt => ?_⟩, fun bs => ?_, fun bs x => ⟨rfl, ?_⟩⟩
  · rw [byteStep_awaitTag h]
    exact ⟨fun hx => hx ▸ tagStep_idle, fun hx => hx ▸ tagStep_clear, fun hx => hx ▸ tagStep_setCursor,
      fun hx => hx ▸ tagStep_print, fun hx => hx ▸ tagStep_printGlyph, fun hx => hx ▸ tagStep_createGlyph,
      fun hx => tagStep_unknown hx⟩
  · rw [byteStep_prLen h]
    exact ⟨fun hx => hx ▸ printLengthStep_zero, fun hx => printLengthStep_pos hx⟩
  · refine ⟨b.text.setIfInBounds b.cnt.toNat x, Vector.getElem?_setIfInBounds_self_of_lt (hlt.trans_le hle),
      fun j hj => Vector.getElem?_setIfInBounds_ne hj.symm, fun hlast => ?_, fun hmore => ?_⟩
    · rw [byteStep_prText h, printTextStep_last hlast]
      exact congrArg (fun n => (((b.writeText b.cnt.toNat x).setCnt n).setSt .awaitTag, _))
        (Count.succ_eq_of_toNat hlast).symm
    · rw [byteStep_prText h, printTextStep_more (by omega) hmore]
      rfl
  · refine ⟨b.bmp.setIfInBounds b.cnt.toNat x, Vector.getElem?_setIfInBounds_self_of_lt hlt,
      fun j hj => Vector.getElem?_setIfInBounds_ne hj.symm, fun hlast => ?_, fun hmore => ?_⟩
    · rw [byteStep_cgBmp h, bitmapStep_last (by rw [hlast])]
      rfl
    · rw [byteStep_cgBmp h, bitmapStep_more (by omega) fun he => hmore (Nat.succ.inj he)]
      rfl
  · have hi := Block.reset_inv.byteRun nofun bs
    exact ⟨fun hs => ⟨hi.text_cnt hs, hi.len_le⟩, hi.bitmap_cnt⟩
  · rw [byteTrace_append]
    exact congrArg _ (List.append_nil _)

/-! ## A packet's fronts and its end (R74, R75, R77) -/

theorem St.ne_of_packetTag {v : St} {tag : Byte} (h : v.packetTag = some tag) : v ≠ .awaitTag ∧ v ≠ .issue := by
  constructor <;> rintro rfl <;> cases h

/-- While bytes of a packet are missing the block is inside the packet its tag began. -/
theorem packetTag_of_front (h : b.st = .awaitTag) {i : Instr} (hw : i.wf = true) {tag : Byte}
    {front back : List Byte} (he : encode i = tag :: front ++ back) (hne : back ≠ []) :
    (byteRun b (tag :: front)).st.packetTag = some tag := by
  have hback : 0 < back.length := List.length_pos_iff.mpr hne
  have hlen := congrArg List.length he
  simp only [List.cons_append, List.length_cons, List.length_append] at hlen
  cases i with
  | idle | clear | unknown =>
    simp only [encode, List.length_singleton] at hlen
    omega
  | setCursor row col =>
    obtain ⟨rfl, -⟩ := List.cons.inj he
    match front with
    | [] | [_] => rw [byteRun_awaitTag h]; rfl
    | _ :: _ :: _ => simp [encode] at hlen; omega
  | print declared text =>
    obtain ⟨rfl, hrest⟩ := List.cons.inj he
    cases front with
    | nil => rw [byteRun_awaitTag h]; rfl
    | cons _ front =>
      obtain ⟨rfl, rfl⟩ := List.cons.inj hrest
      have htext : (front ++ back).length = min declared.toNat maxText := eq_of_beq hw
      rw [List.length_append] at htext
      rw [(print_front b h declared front (by omega)).1]
      rfl
  | printGlyph index =>
    obtain ⟨rfl, -⟩ := List.cons.inj he
    match front with
    | [] => rw [byteRun_awaitTag h]; rfl
    | _ :: _ => simp [encode] at hlen; omega
  | createGlyph index bitmap =>
    obtain ⟨rfl, -⟩ := List.cons.inj he
    cases front with
    | nil => rw [byteRun_awaitTag h]; rfl
    | cons index' front =>
      rw [(createGlyph_front b h index' front (by simp [encode] at hlen; omega)).1]
      rfl

/-- R55's length is the number of bytes. -/
theorem encode_length {i : Instr} (hw : i.wf = true) : (encode i).length = i.length := by
  cases i with
  | print declared text => exact (Laws.EncodedLength.print declared text hw).1
  | createGlyph index bitmap => exact (Laws.EncodedLength.createGlyph index bitmap hw).1
  | idle | clear | setCursor | printGlyph | unknown => rfl

/-- Settles O10: the length law, the packet's end, and the fronts inside the packet. -/
theorem packetReturnsToAwaitTagOnItsLastByte : Obligations.PacketReturnsToAwaitTagOnItsLastByte := by
  refine ⟨fun b x h => ?_, fun b i h hw =>
    ⟨encode_length hw, (delivers_encode h hw).boundary, fun front back he hf hb => ?_⟩⟩
  · obtain ⟨v, c, -, ht⟩ := tagStep_shape x
    rw [byteStep_awaitTag h, ht]
    rfl
  · obtain ⟨tag, front, rfl⟩ := List.exists_cons_of_ne_nil hf
    exact St.ne_of_packetTag (packetTag_of_front h hw he hb)

theorem packetCommand_eq_none {i : Instr} : packetCommand i = none ↔ i = .idle := by
  cases i <;> simp [packetCommand]

/-- Settles O11: a packet delivers its one command. -/
theorem packetEndsWithItsOneCommand : Obligations.PacketEndsWithItsOneCommand := by
  intro b i h hw
  have hd := delivers_encode h hw
  exact ⟨fun front back => hd.quiet_front, hd.trace, packetCommand_eq_none⟩

end

/-! ## One rising edge (R78-R83) -/

section

variable {b : Block} {i j : Inputs}

/-- Settles O26: the five edge rules, with the end of a packet's last step. -/
theorem clockEdgeTakesTheFirstCase : Obligations.ClockEdgeTakesTheFirstCase := by
  refine fun b i => ⟨Block.clockEdge_rst, fun hr hs x hx => ⟨fun hc => ?_, fun c hc => ?_⟩, Block.clockEdge_wait,
    Block.clockEdge_complete, Block.clockEdge_hold, rfl, fun _ _ => rfl, fun _ => rfl, fun _ => rfl, fun _ _ => rfl,
    fun _ => rfl⟩
  · rw [Block.clockEdge_byte hr hs hx, Block.acceptByte_none hc]
  · rw [Block.clockEdge_byte hr hs hx, Block.acceptByte_some hc]
    exact ⟨(byteStep_fitsCircuit hs x).ended c hc, rfl⟩

/-- In `ISSUE` no byte is consumed (R79). -/
theorem Block.byteBeat_of_issue (h : b.st = .issue) : b.byteBeat i = none :=
  Option.eq_none_iff_forall_not_mem.mpr fun _ hx => (byteBeat_eq_some.mp hx).2.1 h

/-- Outside `ISSUE` no command completes (R81). -/
theorem Block.commandBeat_of_ne_issue (h : b.st ≠ .issue) : b.commandBeat i = false :=
  Bool.eq_false_iff.mpr fun hc => h (commandBeat_eq_true.mp hc).2.1

/-- Settles O27: with no byte beat the byte source keeps what it holds. -/
theorem noByteIsTakenWhileIssuing : Obligations.NoByteIsTakenWhileIssuing := by
  refine ⟨Block.rxReady_eq_true, fun b i => Block.byteBeat_of_issue, fun s hs => ?_⟩
  have hbeat := Block.byteBeat_of_issue (i := s.inputs) hs
  have hrx : s.clock.rx = s.rx ++ s.arrived := by rw [State.clock_rx, State.rxAfterBeat, hbeat]
  exact ⟨fun _ => by rw [State.clock_consumed, hbeat]; rfl, fun x hx => by rw [hrx, List.head?_append, hx]; rfl⟩

/-- Settles O28: what the edge does is read off `ST` first, and then off the inputs that state looks at. -/
theorem portsAreIgnoredOutsideTheirStates : Obligations.PortsAreIgnoredOutsideTheirStates := by
  refine fun b i j hrst => ⟨fun hs => ?_, fun hs hrx => ?_, fun hs hcmd => ?_⟩
  · exact Bool.eq_false_iff.mpr fun hv => hs ((Block.cmdValid_eq_true b).mp hv)
  · exact ⟨by simp [Block.clockEdge, hs, hrst, hrx], by simp [Block.byteBeat, hrst, hrx],
      Block.commandBeat_of_ne_issue hs⟩
  · exact ⟨by simp [Block.clockEdge, hs, hrst, hcmd], by simp [Block.commandBeat, hrst, hcmd],
      Block.byteBeat_of_issue hs⟩

/-- An edge without reset and without a beat leaves the block as it is (R83). -/
theorem Block.clockEdge_of_no_beat (hr : i.rst = false) (hbyte : b.byteBeat i = none)
    (hcmd : b.commandBeat i = false) : b.clockEdge i = b := by
  by_cases hs : b.st = .issue
  · cases hc : i.cmdReady with
    | true => rw [commandBeat_eq_true.mpr ⟨hr, hs, hc⟩] at hcmd; cases hcmd
    | false => exact clockEdge_hold hr hs hc
  · cases hx : i.rx with
    | some x => rw [byteBeat_eq_some.mpr ⟨hr, hs, hx⟩] at hbyte; cases hbyte
    | none => exact clockEdge_wait hr hs hx

/-- Settles O29: the edge without a beat, read both ways. -/
theorem edgeWithoutBeatChangesNothing : Obligations.EdgeWithoutBeatChangesNothing := by
  refine ⟨fun b i => Block.clockEdge_of_no_beat, fun b i hr h => ?_, fun b i hne => ?_, fun b i x hx => ?_⟩
  · rcases h with ⟨hs, hx⟩ | ⟨hs, hc⟩
    · exact Block.clockEdge_wait hr hs hx
    · exact Block.clockEdge_hold hr hs hc
  · by_contra hno
    push Not at hno
    obtain ⟨hr, hbyte, hcmd⟩ := hno
    exact hne (Block.clockEdge_of_no_beat (Bool.eq_false_iff.mpr hr) hbyte (Bool.eq_false_iff.mpr hcmd))
  · obtain ⟨hr, hs, hrx⟩ := Block.byteBeat_eq_some.mp hx
    exact Block.clockEdge_byte hr hs hrx

end

/-- Settles O32: what the port presents after a byte beat, and the two edge rules of `ISSUE`. -/
theorem issuePresentsHoldsAndCompletes : Obligations.IssuePresentsHoldsAndCompletes := by
  refine ⟨fun b x c _ hs hc => ?_, fun s hs hr => ⟨fun hcmd => ?_, fun hcmd => ?_⟩⟩
  · have hport := Block.presented_acceptByte hs x
    rw [Block.acceptByte_some hc] at hport ⊢
    exact ⟨rfl, rfl, hport.trans hc⟩
  · have hbeat : s.blk.commandBeat s.inputs = false := by simp [Block.commandBeat, hcmd]
    rw [State.clock_blk, Block.clockEdge_hold hr hs hcmd, State.clock_trace, hbeat]
    exact ⟨rfl, List.append_nil _⟩
  · have hbeat : s.blk.commandBeat s.inputs = true := Block.commandBeat_eq_true.mpr ⟨hr, hs, hcmd⟩
    rw [State.clock_blk, Block.clockEdge_complete hr hs hcmd, State.clock_trace, hbeat]
    exact ⟨rfl, rfl⟩

/-- Settles O34: by induction on the edges, each of which has no beat. -/
theorem waitingForAByteChangesNothing : Obligations.WaitingForAByteChangesNothing := by
  intro n s hs hwait
  induction n with
  | zero => exact ⟨rfl, rfl, rfl⟩
  | succ n ih =>
    obtain ⟨hblk, htrace, hconsumed⟩ := ih fun k hk => hwait k (by omega)
    obtain ⟨hr, hx⟩ := hwait n (by omega)
    have hs' : (s.clocks n).blk.st ≠ .issue := hblk ▸ hs
    have hbeat : (s.clocks n).blk.byteBeat (s.clocks n).inputs = none := by simp [Block.byteBeat, hx]
    rw [State.clocks_succ_last, State.clock_blk, Block.clockEdge_wait hr hs' hx, State.clock_trace,
      Block.commandBeat_of_ne_issue hs', State.clock_consumed, hbeat]
    exact ⟨hblk, (List.append_nil _).trans htrace, hconsumed⟩

/-! ## Agreement of the two levels (R84) -/

section

variable {b : Block}

/-- The registers of the byte level: a pending command is over there already, and `OP` is no part of it (R72). -/
def Block.byteLevel (b : Block) : Block := (if b.st = .issue then b.complete else b).setOp 0#3

theorem Block.byteLevel_of_issue (h : b.st = .issue) : b.byteLevel = b.complete.setOp 0#3 := by
  rw [byteLevel, if_pos h]

theorem Block.byteLevel_of_ne_issue (h : b.st ≠ .issue) : b.byteLevel = b.setOp 0#3 := by
  rw [byteLevel, if_neg h]

/-- The command beat is no event of the byte level. -/
theorem Block.byteLevel_complete (h : b.st = .issue) : b.complete.byteLevel = b.byteLevel := by
  rw [byteLevel_of_issue h, byteLevel_of_ne_issue (by simp)]

/-- `Step` neither reads nor writes `OP` (R72). -/
theorem byteStep_setOp (b : Block) (v : OpCode) (x : Byte) :
    byteStep (b.setOp v) x = (byteStep b x).map (Block.setOp · v) id := by
  cases hs : b.st with
  | awaitTag =>
    obtain ⟨w, c, -, ht⟩ := tagStep_shape x
    rw [byteStep_awaitTag hs, byteStep_awaitTag (b := b.setOp v) hs, ht, ht]
    rfl
  | prLen =>
    rw [byteStep_prLen hs, byteStep_prLen (b := b.setOp v) hs]
    rw [printLengthStep, printLengthStep, apply_ite (Prod.map _ _)]
    rfl
  | prText =>
    rw [byteStep_prText hs, byteStep_prText (b := b.setOp v) hs]
    rw [printTextStep, printTextStep, apply_ite (Prod.map _ _)]
    rfl
  | cgBmp =>
    rw [byteStep_cgBmp hs, byteStep_cgBmp (b := b.setOp v) hs]
    rw [bitmapStep, bitmapStep, apply_ite (Prod.map _ _)]
    rfl
  | scRow => rw [byteStep_scRow hs, byteStep_scRow (b := b.setOp v) hs]; rfl
  | scCol => rw [byteStep_scCol hs, byteStep_scCol (b := b.setOp v) hs]; rfl
  | pgIdx => rw [byteStep_pgIdx hs, byteStep_pgIdx (b := b.setOp v) hs]; rfl
  | cgIdx => rw [byteStep_cgIdx hs, byteStep_cgIdx (b := b.setOp v) hs]; rfl
  | issue => rw [byteStep_issue hs, byteStep_issue (b := b.setOp v) hs]; rfl

/-- Issuing and completing a command at a packet boundary leaves its mark in `OP` only. -/
theorem Block.complete_issue_setOp (h : b.st = .awaitTag) (c : Cmd) (v : OpCode) :
    (b.issue c).complete.setOp v = b.setOp v := by
  have hst : b.setSt .awaitTag = b := by rw [← h]; rfl
  calc (b.issue c).complete.setOp v = (b.setSt .awaitTag).setOp v := rfl
    _ = b.setOp v := by rw [hst]

/-- A byte beat is one `Step` of the byte level (R78), and the command put out is then on the port. -/
theorem byteStep_byteLevel (h : b.st ≠ .issue) (x : Byte) :
    byteStep b.byteLevel x = ((b.acceptByte x).byteLevel, (b.acceptByte x).presented) := by
  have hfit := byteStep_fitsCircuit h x
  rw [Block.byteLevel_of_ne_issue h, byteStep_setOp, Block.presented_acceptByte h, Prod.map, id]
  cases hc : (byteStep b x).2 with
  | none => rw [Block.acceptByte_none hc, Block.byteLevel_of_ne_issue hfit.receiving]
  | some c =>
    rw [Block.acceptByte_some hc, Block.byteLevel_of_issue rfl, Block.complete_issue_setOp (hfit.ended c hc)]

end

/-! ## One edge without reset and arrivals -/

section

variable {bs : List Byte} {s : State}

theorem State.undisturbed_clocks (h : s.undisturbed) (n : Nat) : (s.clocks n).undisturbed := fun k => by
  simpa using h (n + k)

/-- The block waits at the coming edge: in `ISSUE` for the driver, outside it for a byte. -/
structure State.Waits (s : State) : Prop where
  driver : s.blk.st = .issue → (s.edgeAt 0).pins.cmdReady = false
  byte : s.blk.st ≠ .issue → s.rx = [] ∨ (s.edgeAt 0).pins.offers = false

/-- Without reset and arrivals an edge is a byte beat, a command beat, or a wait that changes nothing. -/
theorem State.undisturbed.clock_cases (hu : s.undisturbed) :
    (s.blk.st ≠ .issue ∧ ∃ x xs, s.rx = x :: xs ∧ s.clock.blk = s.blk.acceptByte x ∧
      s.clock.consumed = s.consumed + 1 ∧ s.clock.trace = s.trace ∧ s.clock.rx = xs) ∨
    (s.blk.st = .issue ∧ s.clock.blk = s.blk.complete ∧ s.clock.consumed = s.consumed ∧
      s.clock.trace = s.trace ++ s.blk.presented.toList ∧ s.clock.rx = s.rx) ∨
    (s.Waits ∧ s.clock.blk = s.blk ∧ s.clock.consumed = s.consumed ∧ s.clock.trace = s.trace ∧
      s.clock.rx = s.rx) := by
  obtain ⟨hrst, harr⟩ := hu 0
  have hcases := s.clock_cases
  rw [arrived_none harr] at hcases
  simp only [List.append_nil] at hcases
  rcases hcases with ⟨hr, -⟩ | ⟨-, hs, -, hbeat⟩ | ⟨-, hs, hwait, hsame⟩ | ⟨-, hs, -, hbeat⟩ | ⟨-, hs, hwait, hsame⟩
  · rw [hrst] at hr; cases hr
  · exact .inl ⟨hs, hbeat⟩
  · exact .inr (.inr ⟨⟨fun h => absurd h hs, fun _ => hwait⟩, hsame⟩)
  · exact .inr (.inl ⟨hs, hbeat⟩)
  · exact .inr (.inr ⟨⟨fun _ => hwait, fun h => absurd hs h⟩, hsame⟩)

/-! ## The agreement at every edge (R84) -/

/-- The circuit, fed `bs`, agrees with the byte level: of the bytes consumed so far the byte level has put out the
completed commands and the pending one, and it has the circuit's registers. -/
structure State.Agrees (bs : List Byte) (s : State) : Prop where
  consumed_le : s.consumed ≤ bs.length
  rx_eq : s.rx = bs.drop s.consumed
  trace_eq : s.trace ++ s.blk.presented.toList = byteTrace Block.reset (bs.take s.consumed)
  blk_eq : s.blk.byteLevel = byteRun Block.reset (bs.take s.consumed)

theorem State.Agrees.fed (bs : List Byte) (sched : List Edge) (levels : Pins) :
    (State.fed bs sched levels).Agrees bs :=
  ⟨Nat.zero_le _, rfl, rfl, rfl⟩

/-- The agreement rests on what is observed and on the byte level only. -/
theorem State.Agrees.congr {t : State} (h : s.Agrees bs) (hconsumed : t.consumed = s.consumed) (hrx : t.rx = s.rx)
    (htrace : t.trace ++ t.blk.presented.toList = s.trace ++ s.blk.presented.toList)
    (hblk : t.blk.byteLevel = s.blk.byteLevel) : t.Agrees bs := by
  constructor
  · exact hconsumed ▸ h.consumed_le
  · rw [hrx, hconsumed, h.rx_eq]
  · rw [htrace, hconsumed, h.trace_eq]
  · rw [hblk, hconsumed, h.blk_eq]

/-- A byte beat takes the byte level one step further. -/
theorem State.Agrees.byteBeat {t : State} {x : Byte} {xs : List Byte} (h : s.Agrees bs) (hs : s.blk.st ≠ .issue)
    (hx : s.rx = x :: xs) (hblk : t.blk = s.blk.acceptByte x) (hconsumed : t.consumed = s.consumed + 1)
    (htrace : t.trace = s.trace) (hrx : t.rx = xs) : t.Agrees bs := by
  have hdrop : bs.drop s.consumed = x :: xs := h.rx_eq ▸ hx
  have hlt : s.consumed < bs.length := by
    rw [← List.drop_eq_nil_iff.not.trans Nat.not_le, hdrop]
    nofun
  obtain ⟨hhead, htail⟩ := List.cons.inj ((List.drop_eq_getElem_cons hlt).symm.trans hdrop)
  have htake : bs.take (s.consumed + 1) = bs.take s.consumed ++ [x] := by
    rw [← hhead, List.take_append_getElem hlt]
  have hstep := h.blk_eq ▸ byteStep_byteLevel hs x
  have hquiet := h.trace_eq
  rw [Block.presented_of_ne_issue hs, Option.toList_none, List.append_nil] at hquiet
  constructor
  · exact hconsumed ▸ hlt
  · rw [hrx, hconsumed, htail]
  · rw [htrace, hconsumed, htake, byteTrace_append, ← hquiet, byteTrace, hstep, hblk, byteTrace, List.append_nil]
  · rw [hconsumed, htake, byteRun_append, byteRun, hstep, hblk, byteRun]

/-- Every edge without reset and arrivals keeps the agreement (R84). -/
theorem State.Agrees.clock (h : s.Agrees bs) (hu : s.undisturbed) : s.clock.Agrees bs := by
  rcases hu.clock_cases with ⟨hs, x, xs, hx, hblk, hconsumed, htrace, hrx⟩ | ⟨hs, hblk, hconsumed, htrace, hrx⟩ |
    ⟨-, hblk, hconsumed, htrace, hrx⟩
  · exact h.byteBeat hs hx hblk hconsumed htrace hrx
  · refine h.congr hconsumed hrx ?_ (by rw [hblk, Block.byteLevel_complete hs])
    rw [htrace, hblk, Block.presented_of_ne_issue (b := s.blk.complete) (by simp)]
    exact List.append_nil _
  · exact h.congr hconsumed hrx (by rw [htrace, hblk]) (by rw [hblk])

theorem State.Agrees.clocks (h : s.Agrees bs) (hu : s.undisturbed) (n : Nat) : (s.clocks n).Agrees bs := by
  induction n with
  | zero => exact h
  | succ n ih =>
    rw [State.clocks_succ_last]
    exact ih.clock (State.undisturbed_clocks hu n)

theorem State.Agrees.trace_prefix (h : s.Agrees bs) : s.trace <+: byteTrace Block.reset bs :=
  calc s.trace <+: s.trace ++ s.blk.presented.toList := List.prefix_append _ _
    _ = byteTrace Block.reset (bs.take s.consumed) := h.trace_eq
    _ <+: byteTrace Block.reset bs := byteTrace_prefix (List.take_prefix _ _)

/-! ## Progress (R84) -/

/-- The beats still to come, at most: two for each byte held, its own and that of the command it may end, and one for
a pending command. -/
def State.backlog (s : State) : Nat := 2 * s.rx.length + if s.blk.st = .issue then 1 else 0

theorem State.backlog_congr {t : State} (hblk : t.blk = s.blk) (hrx : t.rx = s.rx) : t.backlog = s.backlog := by
  rw [backlog, backlog, hblk, hrx]

theorem State.backlog_eq_zero : s.backlog = 0 ↔ s.rx = [] ∧ s.blk.st ≠ .issue := by
  simp [backlog]

/-- An edge lowers the backlog, or the block waits and nothing changes. -/
theorem State.undisturbed.clock_backlog (hu : s.undisturbed) :
    s.clock.backlog < s.backlog ∨ (s.Waits ∧ s.clock.blk = s.blk ∧ s.clock.rx = s.rx) := by
  rcases hu.clock_cases with ⟨hs, x, xs, hx, -, -, -, hrx⟩ | ⟨hs, hblk, -, -, hrx⟩ | ⟨hwait, hblk, -, -, hrx⟩
  · left
    rw [backlog, backlog, hrx, hx, List.length_cons, if_neg hs]
    split <;> omega
  · left
    rw [backlog, backlog, hrx, hblk, if_neg (by simp), if_pos hs]
    omega
  · exact .inr ⟨hwait, hblk, hrx⟩

/-- A state whose backlog never gets lower waits for ever, with nothing changed. -/
theorem State.undisturbed.waits_of_least (hu : s.undisturbed) (hleast : ∀ m, s.backlog ≤ (s.clocks m).backlog)
    (m : Nat) : (s.clocks m).Waits ∧ (s.clocks m).blk = s.blk ∧ (s.clocks m).rx = s.rx := by
  have hnext (m : Nat) (hsame : (s.clocks m).blk = s.blk ∧ (s.clocks m).rx = s.rx) :
      (s.clocks m).Waits ∧ (s.clocks m).clock.blk = s.blk ∧ (s.clocks m).clock.rx = s.rx := by
    obtain ⟨hblk, hrx⟩ := hsame
    rcases (undisturbed_clocks hu m).clock_backlog with hlt | ⟨hwait, hblk', hrx'⟩
    · have hle := hleast (m + 1)
      rw [clocks_succ_last, ← backlog_congr hblk hrx] at hle
      omega
    · exact ⟨hwait, hblk'.trans hblk, hrx'.trans hrx⟩
  have hsame : (s.clocks m).blk = s.blk ∧ (s.clocks m).rx = s.rx := by
    induction m with
    | zero => exact ⟨rfl, rfl⟩
    | succ m ih => rw [clocks_succ_last]; exact (hnext m ih).2
  exact ⟨(hnext m hsame).1, hsame⟩

/-- The premises of R84's progress: every pending command is eventually completed by the driver, and every byte not
yet consumed eventually offered. -/
structure State.Fair (s : State) : Prop where
  driver : ∀ n, (s.clocks n).blk.st = .issue → ∃ k, n ≤ k ∧ (s.edgeAt k).pins.cmdReady = true
  byte : ∀ n, (s.clocks n).blk.st ≠ .issue → (s.clocks n).rx ≠ [] → ∃ k, n ≤ k ∧ (s.edgeAt k).pins.offers = true

/-- An edge from the `n + m`-th on is one from the `m`-th on after `n` edges. -/
theorem State.exists_edgeAt_clocks {P : Edge → Prop} {n m : Nat} (h : ∃ k, n + m ≤ k ∧ P (s.edgeAt k)) :
    ∃ k, m ≤ k ∧ P ((s.clocks n).edgeAt k) := by
  obtain ⟨k, hk, hedge⟩ := h
  obtain ⟨j, rfl⟩ := Nat.exists_eq_add_of_le (Nat.le_of_add_right_le hk)
  exact ⟨j, by omega, by rwa [edgeAt_clocks]⟩

theorem State.Fair.clocks (hf : s.Fair) (n : Nat) : (s.clocks n).Fair := by
  constructor
  · intro m hs
    rw [← clocks_add] at hs
    exact exists_edgeAt_clocks (P := fun e => e.pins.cmdReady = true) (hf.driver (n + m) hs)
  · intro m hs hrx
    rw [← clocks_add] at hs hrx
    exact exists_edgeAt_clocks (P := fun e => e.pins.offers = true) (hf.byte (n + m) hs hrx)

/-- Under a fair plan only an empty backlog never gets lower: neither the driver nor a byte is awaited for ever. -/
theorem State.Fair.backlog_of_least (hf : s.Fair) (hu : s.undisturbed)
    (hleast : ∀ m, s.backlog ≤ (s.clocks m).backlog) : s.backlog = 0 := by
  have hwaits := hu.waits_of_least hleast
  have hidle : s.blk.st ≠ .issue := by
    intro hs
    obtain ⟨k, -, hready⟩ := hf.driver 0 hs
    obtain ⟨hwait, hblk, -⟩ := hwaits k
    have hdriver := hwait.driver (hblk ▸ hs)
    rw [edgeAt_clocks, Nat.add_zero, hready] at hdriver
    cases hdriver
  refine backlog_eq_zero.mpr ⟨?_, hidle⟩
  by_contra hrx
  obtain ⟨k, -, hoffers⟩ := hf.byte 0 hidle hrx
  obtain ⟨hwait, hblk, hrx'⟩ := hwaits k
  have hbyte := (hwait.byte (hblk ▸ hidle)).resolve_left (hrx' ▸ hrx)
  rw [edgeAt_clocks, Nat.add_zero, hoffers] at hbyte
  cases hbyte

/-- Under a fair plan the backlog is worked off. -/
theorem State.Fair.backlog_eventually_zero (hf : s.Fair) (hu : s.undisturbed) : ∃ n, (s.clocks n).backlog = 0 := by
  obtain ⟨n, hleast⟩ : ∃ n, ∀ m, (s.clocks n).backlog ≤ (s.clocks m).backlog :=
    ⟨_, fun m => Nat.not_lt.mp (Function.not_lt_argmin (fun n => (s.clocks n).backlog) m)⟩
  refine ⟨n, (hf.clocks n).backlog_of_least (undisturbed_clocks hu n) fun m => ?_⟩
  rw [← clocks_add]
  exact hleast (n + m)

/-- Once the backlog is worked off every command of the stream has completed. -/
theorem State.Agrees.trace_of_backlog_zero (h : s.Agrees bs) (hzero : s.backlog = 0) :
    s.trace = byteTrace Block.reset bs := by
  obtain ⟨hrx, hs⟩ := State.backlog_eq_zero.mp hzero
  have hall : bs.length ≤ s.consumed := List.drop_eq_nil_iff.mp (h.rx_eq ▸ hrx)
  have htrace := h.trace_eq
  rwa [Block.presented_of_ne_issue hs, Option.toList_none, List.append_nil, List.take_of_length_le hall] at htrace

end

/-- Settles O52: the agreement holds from reset on and every edge keeps it; under a fair plan the backlog is worked
off. -/
theorem circuitAgreesWithByteLevel : Obligations.CircuitAgreesWithByteLevel := by
  intro bs sched levels hu
  have hagrees (n : Nat) := (State.Agrees.fed bs sched levels).clocks hu n
  refine ⟨fun n => ?_, fun hdriver hbyte front hfront => ?_⟩
  · have h := hagrees n
    exact ⟨h.trace_prefix, h.consumed_le, h.rx_eq, h.trace_eq,
      fun hs => (Block.byteLevel_of_ne_issue hs).symm.trans h.blk_eq⟩
  · obtain ⟨n, hzero⟩ := State.Fair.backlog_eventually_zero ⟨hdriver, hbyte⟩ hu
    exact ⟨n, (hagrees n).trace_of_backlog_zero hzero ▸ hfront⟩

end Sys2Proof.Machine

/-! # The packets (spec/41_packets.md) -/

namespace Sys2Proof.Machine

section

variable {b : Block} {i : Instr}

/-! ## What a packet leaves unchanged (R85-R91, "Registers written") -/

theorem packetEffect_row (h : ∀ row col, i ≠ .setCursor row col) : (packetEffect b i).row = b.row := by
  cases i with
  | setCursor row col => exact absurd rfl (h row col)
  | idle | clear | print | printGlyph | createGlyph | unknown => rfl

theorem packetEffect_col (h : ∀ row col, i ≠ .setCursor row col) : (packetEffect b i).col = b.col := by
  cases i with
  | setCursor row col => exact absurd rfl (h row col)
  | idle | clear | print | printGlyph | createGlyph | unknown => rfl

theorem packetEffect_gidx (hp : ∀ index, i ≠ .printGlyph index) (hc : ∀ index bitmap, i ≠ .createGlyph index bitmap) :
    (packetEffect b i).gidx = b.gidx := by
  cases i with
  | printGlyph index => exact absurd rfl (hp index)
  | createGlyph index bitmap => exact absurd rfl (hc index bitmap)
  | idle | clear | setCursor | print | unknown => rfl

theorem packetEffect_len (h : ∀ declared text, i ≠ .print declared text) : (packetEffect b i).len = b.len := by
  cases i with
  | print declared text => exact absurd rfl (h declared text)
  | idle | clear | setCursor | printGlyph | createGlyph | unknown => rfl

theorem packetEffect_text (h : ∀ declared text, i ≠ .print declared text) : (packetEffect b i).text = b.text := by
  cases i with
  | print declared text => exact absurd rfl (h declared text)
  | idle | clear | setCursor | printGlyph | createGlyph | unknown => rfl

theorem packetEffect_cnt (hp : ∀ declared text, i ≠ .print declared text)
    (hc : ∀ index bitmap, i ≠ .createGlyph index bitmap) : (packetEffect b i).cnt = b.cnt := by
  cases i with
  | print declared text => exact absurd rfl (hp declared text)
  | createGlyph index bitmap => exact absurd rfl (hc index bitmap)
  | idle | clear | setCursor | printGlyph | unknown => rfl

theorem packetEffect_bmp (h : ∀ index bitmap, i ≠ .createGlyph index bitmap) : (packetEffect b i).bmp = b.bmp := by
  cases i with
  | createGlyph index bitmap => exact absurd rfl (h index bitmap)
  | idle | clear | setCursor | print | printGlyph | unknown => rfl

/-- PRINT stores its text from the start of `TEXT`. -/
theorem packetEffect_print_text (declared : Byte) (text : List Byte) :
    (packetEffect b (.print declared text)).text = storeBytes b.text 0 text := rfl

/-- Settles O24: the frame of each register, and of `TEXT` under PRINT the elements past the text. -/
theorem execWritesOnlyItsRegisters : Obligations.ExecWritesOnlyItsRegisters := by
  intro i s t hw hexec
  rw [exec_eq] at hexec
  cases hexec
  refine ⟨fun h => ⟨packetEffect_row h, packetEffect_col h⟩, packetEffect_gidx,
    fun h => ⟨packetEffect_len h, fun j => congrArg (·[j]?) (packetEffect_text h)⟩, ?_, packetEffect_cnt,
    fun h j => congrArg (·[j]?) (packetEffect_bmp h), fun hi => hi ▸ rfl⟩
  rintro declared text rfl j hj
  have hlen : text.length = min declared.toNat 16 := eq_of_beq hw
  rw [State.onBlock_blk, packetEffect_print_text]
  exact storeBytes_above _ 0 j text (by omega)

/-! ## The command a packet presents -/

/-- After a whole packet the port presents the packet's command: none for the idle packet, which is not in `ISSUE`. -/
theorem presented_packetEffect (hw : i.wf = true) : (packetEffect b i).presented = packetCommand i := by
  cases i with
  | idle => exact Block.presented_of_ne_issue nofun
  | clear => exact (Block.presented_of_issue rfl).trans (Block.commandOfOp_clear rfl)
  | setCursor row col => exact (Block.presented_of_issue rfl).trans (Block.commandOfOp_setCursor rfl)
  | print declared text =>
    have hlen : text.length = min declared.toNat maxText := eq_of_beq hw
    have hprefix : (packetEffect b (.print declared text)).textPrefix = text := by
      have htake := storeBytes_take b.text text (hlen ▸ Nat.min_le_right _ _)
      rwa [hlen, ← clampLength_toNat] at htake
    rw [Block.presented_of_issue rfl, Block.commandOfOp_print rfl, hprefix, packetCommand]
  | printGlyph index => exact (Block.presented_of_issue rfl).trans (Block.commandOfOp_printGlyph rfl)
  | createGlyph index bitmap => exact (Block.presented_of_issue rfl).trans (Block.commandOfOp_defineGlyph rfl)
  | unknown tag => exact (Block.presented_of_issue rfl).trans (Block.commandOfOp_errorReport rfl)

theorem presented_of_exec {s t : State} (hw : i.wf = true) (h : exec i s = .next t) :
    t.blk.presented = packetCommand i := by
  rw [exec_eq] at h
  cases h
  exact presented_packetEffect hw

/-! ## The packets of one byte (R85, R86, R91) -/

theorem Block.setSt_eq_self {v : St} (h : b.st = v) : b.setSt v = b := by rw [← h]; rfl

/-- A tag that is the whole packet is consumed in `AWAIT_TAG` and leads back there. -/
theorem byteStep_oneByte (h : b.st = .awaitTag) {x : Byte} {c : Option Cmd}
    (ht : tagStep b x = ((b.setTag x).setSt .awaitTag, c)) : byteStep b x = (b.setTag x, c) := by
  rw [byteStep_awaitTag h, ht, Block.setSt_eq_self (b := b.setTag x) h]

/-- Any number of idle bytes put out nothing and end at a packet boundary. -/
theorem idleBytes_quiet (n : Nat) (h : b.st = .awaitTag) :
    byteTrace b (List.replicate n tagIdle) = [] ∧ (byteRun b (List.replicate n tagIdle)).st = .awaitTag := by
  induction n generalizing b with
  | zero => exact ⟨rfl, h⟩
  | succ n ih =>
    rw [List.replicate_succ, byteTrace, byteRun, byteStep_oneByte h tagStep_idle]
    exact ih (b := b.setTag tagIdle) h

/-- Settles O16: the decoder and the meaning of IDLE, its one byte, and induction for any number of them. -/
theorem idleWritesTagOnly : Obligations.IdleWritesTagOnly :=
  ⟨decode_idle, exec_eq _, fun _ h => byteStep_oneByte h tagStep_idle, fun _ n h => idleBytes_quiet n h⟩

/-- Settles O17: the decoder and the meaning of CLEAR, the command presented, and its one byte. -/
theorem clearIssuesClear : Obligations.ClearIssuesClear :=
  ⟨decode_clear, exec_eq _, fun _ _ => presented_of_exec rfl, fun _ h => byteStep_oneByte h tagStep_clear⟩

/-- Settles O22: the error report is put out on the tag byte itself, and from the packet boundary after it the trace
goes on as from the one before it. -/
theorem unknownIssuesErrorReport : Obligations.UnknownIssuesErrorReport := by
  intro tag htag
  refine ⟨decode_unknown htag, exec_eq _, fun _ _ => presented_of_exec (decide_eq_true htag), fun b h => ?_⟩
  have hstep : byteStep b tag = (b.setTag tag, some (.errorReport tag)) := byteStep_oneByte h (tagStep_unknown htag)
  refine ⟨hstep, fun more => ?_⟩
  rw [byteTrace, hstep, traceFromBoundaryIgnoresRegisters (b.setTag tag) b more h h]
  rfl

/-! ## The packets of fixed length (R87, R89, R90) -/

section

variable (h : b.st = .awaitTag)
include h

/-- The state in which the byte after the tag is awaited. -/
theorem byteRun_tag_st (x : Byte) : (byteRun b [x]).st = (tagStep b x).1.st :=
  congrArg Block.st (byteRun_awaitTag h x [])

theorem byteRun_setCursor (row col : Byte) :
    byteRun b [tagSetCursor, row, col] = ((b.setTag tagSetCursor).setRow row).setCol col :=
  (byteRun_awaitTag h _ _).trans (Block.setSt_eq_self (b := ((b.setTag tagSetCursor).setRow row).setCol col) h)

theorem byteRun_printGlyph (index : Byte) : byteRun b [tagPrintGlyph, index] = (b.setTag tagPrintGlyph).setGidx index :=
  (byteRun_awaitTag h _ _).trans (Block.setSt_eq_self (b := (b.setTag tagPrintGlyph).setGidx index) h)

/-- At byte level a whole CreateGlyph packet replaces the bitmap and counts its bytes. -/
theorem byteRun_createGlyph (index : Byte) (bitmap : Vector Byte bitmapLen) :
    byteRun b (tagCreateGlyph :: index :: bitmap.toList) =
      (((b.setTag tagCreateGlyph).setGidx index).setCnt (BitVec.ofNat 5 bitmapLen)).setBmp bitmap := by
  have hne : bitmap.toList ≠ [] := by simp [← List.length_eq_zero_iff]
  have hloop := (bitmap_loop_last (((((b.setTag tagCreateGlyph).setSt .cgIdx).setGidx index).setCnt 0#5).setSt .cgBmp)
    bitmap.toList rfl hne (by simp)).1
  rw [byteRun_awaitTag h, tagStep_createGlyph, byteRun, byteStep_cgIdx rfl, hloop, Block.setSt_cnt, Block.setCnt_cnt,
    BitVec.toNat_zero, storeBytes_full]
  exact Block.setSt_eq_self
    (b := (((b.setTag tagCreateGlyph).setGidx index).setCnt (BitVec.ofNat 5 bitmapLen)).setBmp bitmap) h

end

/-- Settles O18: each front of the packet by its tag step, the whole of it by what it delivers. -/
theorem setCursorIssuesItsBytes : Obligations.SetCursorIssuesItsBytes := by
  refine fun row col => ⟨fun _ => rfl, exec_eq _, fun _ _ => presented_of_exec rfl, fun b h => ?_⟩
  have hd := delivers_setCursor h row col
  exact ⟨hd.trace, byteRun_setCursor h row col, byteRun_tag_st h _, congrArg Block.st (byteRun_awaitTag h _ [row]),
    hd.quiet⟩

/-- Settles O20: the front by its tag step, the whole packet by what it delivers. -/
theorem printGlyphIssuesItsIndex : Obligations.PrintGlyphIssuesItsIndex := by
  refine fun index => ⟨fun _ => rfl, exec_eq _, fun _ _ => presented_of_exec rfl, fun b h => ?_⟩
  have hd := delivers_printGlyph h index
  exact ⟨hd.trace, byteRun_printGlyph h index, byteRun_tag_st h _, hd.quiet⟩

/-- Some bytes of a list are missing from every proper front. -/
theorem length_front_lt {xs front back : List Byte} (he : xs = front ++ back) (hne : back ≠ []) :
    front.length < xs.length := by
  have hback : 0 < back.length := List.length_pos_iff.mpr hne
  rw [he, List.length_append]
  omega

/-- Settles O21: the whole packet by what it delivers, a packet cut short by the rule for its fronts. -/
theorem createGlyphIssuesItsBitmap : Obligations.CreateGlyphIssuesItsBitmap := by
  refine fun index bitmap => ⟨decodeCreateGlyph_append index bitmap, exec_eq _, fun _ _ => presented_of_exec rfl,
    fun b h => ⟨(delivers_createGlyph h index bitmap).trace, byteRun_createGlyph h index bitmap, byteRun_tag_st h _,
      fun front back he hne => ?_⟩⟩
  obtain ⟨hrun, htrace⟩ := createGlyph_front b h index front (by simpa using length_front_lt he hne)
  exact ⟨congrArg Block.st hrun, htrace⟩

/-! ## Print (R88) -/

/-- Settles O19: the stored text from the rules for `storeBytes`, the whole packet by what it delivers, a packet cut
short by the rule for its fronts. -/
theorem printIssuesItsText : Obligations.PrintIssuesItsText := by
  intro declared text hlen
  have hw : (Instr.print declared text).wf = true := beq_of_eq hlen
  refine ⟨fun rest => decodePrint_append declared text rest hlen, fun s => ?_, fun b h => ?_⟩
  · exact ⟨_, exec_eq _ s, rfl, rfl, clampLength_toNat declared,
      fun j hj => storeBytes_stored _ 0 j text (Nat.zero_le j) (by omega) (hj.trans_le (hlen ▸ Nat.min_le_right _ _)),
      fun j hj => storeBytes_above _ 0 j text (by omega), presented_packetEffect hw⟩
  · have hd := delivers_print h hlen
    refine ⟨hd.trace, hd.boundary, byteRun_tag_st h _, fun front back he hne => ?_⟩
    obtain ⟨hrun, htrace⟩ := print_front b h declared front (hlen ▸ length_front_lt he hne)
    exact ⟨congrArg Block.st hrun, htrace⟩

end

/-! ## Payload bytes are data (R92) -/

section

variable {b : Block} (x : Byte)

theorem printLengthStep_len : (printLengthStep b x).1.len = clampLength x := by
  rw [printLengthStep]
  split <;> rfl

theorem printTextStep_text : (printTextStep b x).1.text = b.text.setIfInBounds b.cnt.toNat x := by
  rw [printTextStep]
  split <;> rfl

theorem bitmapStep_bmp : (bitmapStep b x).1.bmp = b.bmp.setIfInBounds b.cnt.toNat x := by
  rw [bitmapStep]
  split <;> rfl

/-- Where the text loop goes on is a matter of the counter, not of the byte. -/
theorem printTextStep_st : (printTextStep b x).1.st = if b.cnt + 1#5 = b.len then .awaitTag else b.st :=
  apply_ite (fun r : Block × Option Cmd => r.1.st) _ _ _

/-- Where the bitmap loop goes on is a matter of the counter, not of the byte. -/
theorem bitmapStep_st : (bitmapStep b x).1.st = if (b.cnt + 1#5).toNat = bitmapLen then .awaitTag else b.st :=
  apply_ite (fun r : Block × Option Cmd => r.1.st) _ _ _

/-- The step has neither written `TAG` nor raised the error. -/
structure TakenAsData (b : Block) (r : Block × Option Cmd) : Prop where
  tag_eq : r.1.tag = b.tag
  no_error : ∀ t, r.2 ≠ some (.errorReport t)

/-- Outside `AWAIT_TAG` no byte is taken as a tag. -/
theorem byteStep_takenAsData (h : b.st ≠ .awaitTag) : TakenAsData b (byteStep b x) := by
  cases hs : b.st with
  | awaitTag => exact absurd hs h
  | scRow => rw [byteStep_scRow hs]; exact ⟨rfl, nofun⟩
  | scCol => rw [byteStep_scCol hs]; exact ⟨rfl, nofun⟩
  | prLen =>
    rw [byteStep_prLen hs, printLengthStep]
    split <;> exact ⟨rfl, nofun⟩
  | prText =>
    rw [byteStep_prText hs, printTextStep]
    split <;> exact ⟨rfl, nofun⟩
  | pgIdx => rw [byteStep_pgIdx hs]; exact ⟨rfl, nofun⟩
  | cgIdx => rw [byteStep_cgIdx hs]; exact ⟨rfl, nofun⟩
  | cgBmp =>
    rw [byteStep_cgBmp hs, bitmapStep]
    split <;> exact ⟨rfl, nofun⟩
  | issue => rw [byteStep_issue hs]; exact ⟨rfl, nofun⟩

/-- Only a tag and Print's length byte decide where the packet goes on. -/
theorem byteStep_st_eq (h : b.st ≠ .awaitTag) (hlen : b.st ≠ .prLen) (y : Byte) :
    (byteStep b y).1.st = (byteStep b x).1.st := by
  cases hs : b.st with
  | awaitTag => exact absurd hs h
  | prLen => exact absurd hs hlen
  | scRow => rw [byteStep_scRow hs, byteStep_scRow hs]; rfl
  | scCol => rw [byteStep_scCol hs, byteStep_scCol hs]; rfl
  | prText => rw [byteStep_prText hs, byteStep_prText hs, printTextStep_st, printTextStep_st]
  | pgIdx => rw [byteStep_pgIdx hs, byteStep_pgIdx hs]; rfl
  | cgIdx => rw [byteStep_cgIdx hs, byteStep_cgIdx hs]; rfl
  | cgBmp => rw [byteStep_cgBmp hs, byteStep_cgBmp hs, bitmapStep_st, bitmapStep_st]
  | issue => rw [byteStep_issue hs, byteStep_issue hs]

end

/-- Settles O9: each state's field from the lemma about the state; the invariant keeps the two loops in their
buffers. -/
theorem payloadBytesAreData : Obligations.PayloadBytesAreData := by
  intro b x hi htag _
  obtain ⟨hkeep, hquiet⟩ := byteStep_takenAsData x htag
  refine ⟨fun hs => ?_, fun hs => ?_, fun hs => ?_, fun hs => ?_, fun hs => ?_, fun hs => ?_, fun hs => ?_, hkeep, hquiet,
    byteStep_st_eq x htag⟩
  · rw [byteStep_scRow hs]; rfl
  · rw [byteStep_scCol hs]; rfl
  · rw [byteStep_prLen hs, printLengthStep_len]
    exact clampLength_toNat x
  · rw [byteStep_prText hs, printTextStep_text]
    exact Vector.getElem?_setIfInBounds_self_of_lt ((hi.text_cnt hs).trans_le hi.len_le)
  · rw [byteStep_pgIdx hs]; rfl
  · rw [byteStep_cgIdx hs]; rfl
  · rw [byteStep_cgBmp hs, bitmapStep_bmp]
    exact Vector.getElem?_setIfInBounds_self_of_lt (hi.bitmap_cnt hs)

end Sys2Proof.Machine

/-! # The exception, its boundaries and the stalls (spec/60_exceptions.md) -/

namespace Sys2Proof.Machine

/-! ## Beats and reset (R97) -/

section

variable {b : Block} {i : Inputs}

theorem Block.byteBeat_of_rst (h : i.rst = true) : b.byteBeat i = none := by simp [byteBeat, h]

theorem Block.commandBeat_of_rst (h : i.rst = true) : b.commandBeat i = false := by simp [commandBeat, h]

end

/-- Settles O33: a command beat is in `ISSUE`, where no byte is consumed, and reset excludes both beats. -/
theorem beatsAreExclusive : Obligations.BeatsAreExclusive := by
  refine fun b i => ⟨fun hcmd => ?_, fun hr =>
    ⟨Block.byteBeat_of_rst hr, Block.commandBeat_of_rst hr, Block.clockEdge_rst hr⟩, fun ⟨hready, hvalid⟩ => ?_⟩
  · obtain ⟨-, hs, -⟩ := Block.commandBeat_eq_true.mp hcmd
    exact Block.byteBeat_of_issue hs
  · exact (Block.rxReady_eq_true b).mp hready ((Block.cmdValid_eq_true b).mp hvalid)

/-! ## Raising the error (R93, R94) -/

section

variable {b : Block} {x t : Byte}

/-- The byte-level entry to the error: the tag goes to `TAG`, and its report is put out. -/
theorem byteStep_unknown (h : b.st = .awaitTag) (ht : tagCreateGlyph.toNat < t.toNat) :
    byteStep b t = ((b.setTag t).setSt .awaitTag, some (.errorReport t)) :=
  (byteStep_awaitTag h).trans (tagStep_unknown ht)

/-- The circuit's byte beat of an unknown tag is the entry to the error. -/
theorem Block.acceptByte_unknown (h : b.st = .awaitTag) (ht : tagCreateGlyph.toNat < t.toNat) :
    b.acceptByte t = b.raiseDecodeError t := by
  have hstep := byteStep_unknown h ht
  rw [acceptByte_some (c := .errorReport t) (by rw [hstep]), hstep]
  rfl

/-- Of the tags only the unknown ones raise the error, each its own. -/
theorem tagStep_eq_errorReport :
    (tagStep b x).2 = some (.errorReport t) ↔ x = t ∧ tagCreateGlyph.toNat < t.toNat := by
  constructor
  · intro hout
    rcases tag_cases x with rfl | rfl | rfl | rfl | rfl | rfl | hx
    · cases hout
    · cases hout
    · cases hout
    · cases hout
    · cases hout
    · cases hout
    · rw [tagStep_unknown hx] at hout
      cases hout
      exact ⟨rfl, hx⟩
  · rintro ⟨rfl, hx⟩
    rw [tagStep_unknown hx]

/-- Exactly an unknown tag in `AWAIT_TAG` raises the error (R93). -/
theorem byteStep_eq_errorReport :
    (byteStep b x).2 = some (.errorReport t) ↔ b.st = .awaitTag ∧ x = t ∧ tagCreateGlyph.toNat < t.toNat := by
  by_cases hs : b.st = .awaitTag
  · rw [byteStep_awaitTag hs, tagStep_eq_errorReport, and_iff_right hs]
  · exact iff_of_false ((byteStep_takenAsData x hs).no_error t) fun h => hs h.1

end

/-- Settles O41: the error is raised by exactly the unknown tags, and then the byte beat is the entry to it. -/
theorem onlyUnknownTagsRaiseTheError : Obligations.OnlyUnknownTagsRaiseTheError := by
  refine fun b x t _ => ⟨byteStep_eq_errorReport, fun hout => ?_⟩
  obtain ⟨hs, rfl, hx⟩ := byteStep_eq_errorReport.mp hout
  rw [Block.acceptByte_unknown hs hx, byteStep_unknown hs hx]
  exact ⟨rfl, rfl, rfl, rfl⟩

/-- Settles O42: the tag's step and its byte beat; no command is pending before it, and in `ISSUE` after it no byte is
consumed. -/
theorem errorEntrySavesNothing : Obligations.ErrorEntrySavesNothing := by
  intro b t hs ht
  have hreceiving : b.st ≠ .issue := by rw [hs]; nofun
  exact ⟨byteStep_unknown hs ht, (Block.clockEdge_byte rfl hreceiving rfl).trans (Block.acceptByte_unknown hs ht),
    rfl, rfl, Block.presented_of_ne_issue hreceiving, fun i => Block.byteBeat_of_issue rfl⟩

/-! ## One error after another (R95, R96) -/

/-- A run of unknown tags puts out one report each, in order, and ends at a packet boundary like the one before it. -/
theorem byteTrace_unknown_append {b : Block} (h : b.st = .awaitTag) (tags more : List Byte)
    (hunknown : ∀ t ∈ tags, 6 ≤ t.toNat) :
    byteTrace b (tags ++ more) = tags.map Cmd.errorReport ++ byteTrace b more := by
  induction tags with
  | nil => rfl
  | cons t tags ih =>
    obtain ⟨ht, htags⟩ := List.forall_mem_cons.mp hunknown
    obtain ⟨-, -, -, hreport⟩ := unknownIssuesErrorReport t ht
    rw [List.cons_append, (hreport b h).2, ih htags, List.map_cons, List.cons_append]

/-- Settles O43: no byte beat in `ISSUE`, the command beat of the report that `OP` = 6 stands for, and the run of
unknown tags. -/
theorem errorsAreReportedOneByOne : Obligations.ErrorsAreReportedOneByOne := by
  refine ⟨fun b i => Block.byteBeat_of_issue, fun s hs hop hr hc => ?_,
    fun b tags more h => byteTrace_unknown_append h tags more⟩
  obtain ⟨hblk, htrace⟩ := (issuePresentsHoldsAndCompletes.2 s hs hr).2 hc
  rw [hblk, htrace, Block.presented_of_issue hs, Block.commandOfOp_errorReport hop]
  exact ⟨rfl, rfl⟩

/-! ## Stalls (R98, R99) -/

section

variable {s : State}

/-- With nothing held and nothing arriving the byte source stays empty. -/
theorem State.undisturbed.clocks_rx_nil (hu : s.undisturbed) (h : s.rx = []) (n : Nat) : (s.clocks n).rx = [] := by
  induction n with
  | zero => exact h
  | succ n ih =>
    rw [clocks_succ_last]
    rcases (undisturbed_clocks hu n).clock_cases with ⟨-, x, xs, hx, -⟩ | ⟨-, -, -, -, hrx⟩ | ⟨-, -, -, -, hrx⟩
    · rw [ih] at hx; cases hx
    · exact hrx.trans ih
    · exact hrx.trans ih

theorem State.inputs_rx_nil (h : s.rx = []) : s.inputs.rx = none := by simp [inputs, h]

theorem Block.acceptByte_tag (b : Block) (x : Byte) : (b.acceptByte x).tag = (byteStep b x).1.tag := by
  cases hc : (byteStep b x).2 with
  | none => rw [acceptByte_none hc]
  | some c => rw [acceptByte_some hc, issue_tag]

/-- A pending command that the driver does not complete is held, and no byte is consumed (R99). -/
theorem State.clock_hold (hs : s.blk.st = .issue) (hr : (s.edgeAt 0).pins.rst = false)
    (hc : (s.edgeAt 0).pins.cmdReady = false) :
    s.clock.blk = s.blk ∧ s.clock.trace = s.trace ∧ s.clock.consumed = s.consumed := by
  have hbyte : s.blk.byteBeat s.inputs = none := Block.byteBeat_of_issue hs
  have hcmd : s.blk.commandBeat s.inputs = false := by simp [Block.commandBeat, hc]
  rw [clock_blk, Block.clockEdge_hold hr hs hc, clock_trace, hcmd, clock_consumed, hbyte]
  exact ⟨rfl, List.append_nil _, rfl⟩

end

/-- Settles O35: with no byte to offer every edge is a wait; a byte offered inside a packet is taken as data; and a
packet cut anywhere delivers its one command by its missing bytes. -/
theorem transportStallIsAWait : Obligations.TransportStallIsAWait := by
  refine ⟨fun n s hs hrx hu => ?_, fun b x _ htag hs => ⟨Block.clockEdge_byte rfl hs rfl, ?_⟩,
    fun s hr => Block.clockEdge_rst hr, fun b i front back h hw he _ hback => ?_⟩
  · have hwait (k : Nat) : (s.clocks k).inputs.rst = false ∧ (s.clocks k).inputs.rx = none :=
      ⟨(State.undisturbed_clocks hu k 0).1, State.inputs_rx_nil (hu.clocks_rx_nil hrx k)⟩
    obtain ⟨hblk, htrace, -⟩ := waitingForAByteChangesNothing n s hs fun k _ => hwait k
    exact ⟨hblk, htrace⟩
  · rw [Block.acceptByte_tag, (byteStep_takenAsData x htag).tag_eq]
  · have hd := delivers_encode h hw
    have hquiet : byteTrace b front = [] := hd.quiet_front he hback
    have htrace := hd.trace
    rw [he, byteTrace_append, hquiet] at htrace
    exact ⟨hquiet, htrace⟩

/-- Settles O36: by induction on the edges, each of which holds the command. -/
theorem driverStallIsAWait : Obligations.DriverStallIsAWait := by
  intro n s hs hstall
  induction n with
  | zero => exact ⟨rfl, rfl, rfl, rfl⟩
  | succ n ih =>
    obtain ⟨hblk, hport, htrace, hconsumed⟩ := ih fun k hk => hstall k (by omega)
    have hedge : (s.clocks n).edgeAt 0 = s.edgeAt n := State.edgeAt_clocks s n 0
    obtain ⟨hr, hc⟩ := hedge ▸ hstall n (by omega)
    obtain ⟨hblk', htrace', hconsumed'⟩ := State.clock_hold (hblk ▸ hs) hr hc
    rw [State.clocks_succ_last, hblk', htrace', hconsumed']
    exact ⟨hblk, hport, htrace, hconsumed⟩

end Sys2Proof.Machine

/-! # Reset and the packet-level hazards (spec/70_reset_and_hazards.md) -/

namespace Sys2Proof.Machine

/-! ## The reset edge (R105, R107, R108) -/

/-- A buffer of reset bytes holds one at every place. -/
theorem getElem?_resetBuffer {n j : Nat} (h : j < n) : (Vector.replicate n (0 : Byte))[j]? = some 0 := by
  rw [Vector.getElem?_replicate, if_pos h]

/-- What a reset edge does to the state: the block takes its reset values, and nothing is consumed or completed. -/
theorem State.clock_rst {s : State} (h : (s.edgeAt 0).pins.rst = true) :
    s.clock.blk = Block.reset ∧ s.clock.consumed = s.consumed ∧ s.clock.trace = s.trace ∧
      s.clock.rx = s.rx ++ s.arrived := by
  have hbyte : s.blk.byteBeat s.inputs = none := Block.byteBeat_of_rst h
  have hcmd : s.blk.commandBeat s.inputs = false := Block.commandBeat_of_rst h
  rw [clock_blk, Block.clockEdge_rst h, clock_consumed, clock_trace, clock_rx, rxAfterBeat, hbyte, hcmd]
  exact ⟨rfl, rfl, List.append_nil _, rfl⟩

/-- Settles O37: the registers are those of `Block.reset`, reset excludes both beats, and an arriving byte goes behind
those the source holds. -/
theorem resetEdgeResetsEverything : Obligations.ResetEdgeResetsEverything := by
  intro s hr
  obtain ⟨hblk, -, -, hrx⟩ := State.clock_rst hr
  rw [hblk, hrx]
  exact ⟨rfl, rfl, rfl, rfl, rfl, rfl, rfl, rfl, fun _ => getElem?_resetBuffer, fun _ => getElem?_resetBuffer,
    Block.byteBeat_of_rst hr, Block.commandBeat_of_rst hr, fun x hx => by rw [List.head?_append, hx]; rfl, rfl, rfl⟩

/-- Whatever tag it is, it goes to `TAG` (R73). -/
theorem tagStep_tag (b : Block) (x : Byte) : (tagStep b x).1.tag = x := by
  obtain ⟨v, c, -, ht⟩ := tagStep_shape x
  rw [ht]
  rfl

/-- Settles O39: the reset edge leaves the histories, and the reset block is in `AWAIT_TAG`. -/
theorem resetMidPacketDiscardsIt : Obligations.ResetMidPacketDiscardsIt := by
  intro s x _ _ hr
  obtain ⟨hblk, hconsumed, htrace, -⟩ := State.clock_rst hr
  refine ⟨htrace, hconsumed, ?_⟩
  rw [hblk, Block.acceptByte_tag, byteStep_awaitTag rfl]
  exact ⟨Block.clockEdge_byte rfl nofun rfl, tagStep_tag Block.reset x⟩

/-- Settles O40: `cmd_valid` is read off `ST`, and reset excludes the command beat. -/
theorem resetInIssueAbandonsTheCommand : Obligations.ResetInIssueAbandonsTheCommand := by
  intro s hs hr
  obtain ⟨hblk, -, htrace, -⟩ := State.clock_rst hr
  rw [hblk]
  exact ⟨(Block.cmdValid_eq_true s.blk).mpr hs, rfl, Block.commandBeat_of_rst hr, htrace⟩

/-! ## An oversized Print (R113) -/

section

variable {b : Block} (h : b.st = .awaitTag)
include h

/-- Behind a packet of one byte the trace goes on as from the packet boundary before it. -/
theorem byteTrace_oneByte_cons {x : Byte} {c : Option Cmd}
    (ht : tagStep b x = ((b.setTag x).setSt .awaitTag, c)) (more : List Byte) :
    byteTrace b (x :: more) = c.toList ++ byteTrace b more := by
  rw [byteTrace, byteStep_oneByte h ht, traceFromBoundaryIgnoresRegisters (b.setTag x) b more h h]

/-- Behind a whole Print the trace goes on as from the packet boundary before it: what follows is taken as tags. -/
theorem byteTrace_print_append {declared : Byte} {text : List Byte} (hlen : text.length = Instr.textLength declared)
    (more : List Byte) :
    byteTrace b (tagPrint :: declared :: text ++ more) = .print text :: byteTrace b more := by
  have hboundary : (byteRun b (tagPrint :: declared :: text)).st = .awaitTag := (delivers_print h hlen).boundary
  rw [byteTrace_append, byteTrace_print h hlen, traceFromBoundaryIgnoresRegisters _ b more hboundary h]
  rfl

end

/-- The tags 2 to 5 start a packet with a payload and put out nothing yet (R53, R73). -/
theorem tagStep_payload (b : Block) {x : Byte} (hlow : tagSetCursor.toNat ≤ x.toNat)
    (hhigh : x.toNat ≤ tagCreateGlyph.toNat) : (tagStep b x).1.st ≠ .awaitTag ∧ (tagStep b x).2 = none := by
  rcases tag_cases x with rfl | rfl | rfl | rfl | rfl | rfl | hx
  · exact absurd hlow (by decide)
  · exact absurd hlow (by decide)
  · exact ⟨nofun, rfl⟩
  · exact ⟨nofun, rfl⟩
  · exact ⟨nofun, rfl⟩
  · exact ⟨nofun, rfl⟩
  · exact absurd hx (Nat.not_lt.mpr hhigh)

/-- Settles O15: the 16 bytes are the whole text of the Print, the surplus byte's range picks its row of the tag map,
and `send_print` declares a clamped length. -/
theorem oversizedPrintDesynchronises : Obligations.OversizedPrintDesynchronises := by
  refine ⟨fun b declared text surplus h hbig hlen => ?_, fun b x more h => ⟨fun hx => ?_, ?_, ?_, fun hlow hhigh => ?_⟩,
    fun message => ?_⟩
  · have hfits : text.length = Instr.textLength declared := hlen.trans (Nat.min_eq_right hbig.le).symm
    exact ⟨byteTrace_print_append h hfits surplus, (delivers_print h hfits).boundary⟩
  · exact byteTrace_oneByte_cons h (tagStep_unknown hx) more
  · rintro rfl
    exact byteTrace_oneByte_cons h tagStep_idle more
  · rintro rfl
    exact byteTrace_oneByte_cons h tagStep_clear more
  · rw [byteStep_awaitTag h]
    exact tagStep_payload b hlow hhigh
  · obtain ⟨n, hn, hsend, -⟩ := sendPrintTruncatesToSixteen message
    exact ⟨n, hn.trans_le (Nat.min_le_right _ _), hsend⟩

end Sys2Proof.Machine

/-! # Decoding and encoding (spec/30_encoding.md R51-R58) -/

namespace Sys2Proof

/-! ## The decoder inverts the encoder, and the encoder the decoder -/

/-- Settles O1: by packet class, each the inverse of its format's decoder. -/
theorem decodeOfEncodeIsTheInstruction : Obligations.DecodeOfEncodeIsTheInstruction := by
  intro i rest hw
  cases i with
  | idle => exact decode_idle rest
  | clear => exact decode_clear rest
  | setCursor row col => exact decode_setCursor (row :: col :: rest)
  | print declared text => exact decodePrint_append declared text rest (eq_of_beq hw)
  | printGlyph index => exact decode_printGlyph (index :: rest)
  | createGlyph index bitmap => exact decodeCreateGlyph_append index bitmap rest
  | unknown tag => exact decode_unknown (of_decide_eq_true hw) rest

/-- Settles O6: one written-out packet of each class, by the decoder's rule for its tag. -/
theorem writtenOutPacketsDecode : Obligations.WrittenOutPacketsDecode :=
  ⟨decode_idle [], decode_clear [0x00#8], decode_setCursor [0x01#8, 0x04#8],
    decodePrint_append 2 [0x48#8, 0x49#8] [] rfl, decode_printGlyph [0x07#8],
    decodeCreateGlyph_append 0 #v[0x1F#8, 0x0A#8, 0, 0, 0, 0, 0, 0] [], decode_unknown (by decide) [0x01#8]⟩

/-- The packet is well formed, and the bytes are its encoding followed by the rest. -/
def Heads (i : Instr) (rest bs : List Byte) : Prop := i.wf = true ∧ encode i ++ rest = bs

section

variable {bs rest : List Byte} {i : Instr}

theorem heads_of_decodeSetCursor (h : decodeSetCursor bs = .ok (i, rest)) : Heads i rest (tagSetCursor :: bs) := by
  match bs with
  | _ :: _ :: _ => cases h; exact ⟨rfl, rfl⟩
  | [_] => cases h
  | [] => cases h

theorem heads_of_decodePrint (h : decodePrint bs = .ok (i, rest)) : Heads i rest (tagPrint :: bs) := by
  cases bs with
  | nil => cases h
  | cons declared bs =>
    rw [decodePrint] at h
    split at h
    · rename_i text rest' hsplit
      cases h
      obtain ⟨hlen, rfl⟩ := splitExactly_some hsplit
      exact ⟨beq_of_eq hlen, rfl⟩
    · cases h

theorem heads_of_decodePrintGlyph (h : decodePrintGlyph bs = .ok (i, rest)) : Heads i rest (tagPrintGlyph :: bs) := by
  cases bs with
  | nil => cases h
  | cons index bs => cases h; exact ⟨rfl, rfl⟩

theorem heads_of_decodeCreateGlyph (h : decodeCreateGlyph bs = .ok (i, rest)) :
    Heads i rest (tagCreateGlyph :: bs) := by
  cases bs with
  | nil => cases h
  | cons index bs =>
    rw [decodeCreateGlyph] at h
    split at h
    · rename_i bitmap hbitmap
      cases h
      refine ⟨rfl, ?_⟩
      rw [encode, bytesToVector_some hbitmap, List.cons_append, List.cons_append, List.take_append_drop]
    · cases h

end

/-- Settles O2: by the tag, each class by what its format's decoder takes. -/
theorem encodeOfDecodeIsTheBytes : Obligations.EncodeOfDecodeIsTheBytes := by
  intro bs i rest h
  cases bs with
  | nil => cases h
  | cons tag bs =>
    rcases tag_cases tag with rfl | rfl | rfl | rfl | rfl | rfl | ht
    · cases h; exact ⟨rfl, rfl⟩
    · cases h; exact ⟨rfl, rfl⟩
    · exact heads_of_decodeSetCursor h
    · exact heads_of_decodePrint h
    · exact heads_of_decodePrintGlyph h
    · exact heads_of_decodeCreateGlyph h
    · rw [decode_unknown ht] at h
      cases h
      exact ⟨decide_eq_true ht, rfl⟩

/-! ## Packets cut short -/

theorem decodePrint_incomplete {declared : Byte} {bs : List Byte} (h : bs.length < Instr.textLength declared) :
    decodePrint (declared :: bs) = .error (.incomplete tagPrint) := by
  rw [decodePrint, splitExactly_none.mpr h]

theorem decodeCreateGlyph_incomplete {index : Byte} {bs : List Byte} (h : bs.length < bitmapLen) :
    decodeCreateGlyph (index :: bs) = .error (.incomplete tagCreateGlyph) := by
  have hlen : (bs.take bitmapLen).length ≠ bitmapLen := by rw [List.length_take]; omega
  rw [decodeCreateGlyph, bytesToVector_none.mpr hlen]

/-- A packet whose tag is there but whose last bytes are missing is rejected under its tag. -/
theorem decode_front_incomplete {i : Instr} {tag : Byte} {front back : List Byte} (hw : i.wf = true)
    (he : encode i = tag :: front ++ back) (hne : back ≠ []) :
    decode (tag :: front) = .error (.incomplete tag) := by
  have hlt : (tag :: front).length < (encode i).length := by
    rw [he, List.length_append]
    exact Nat.lt_add_of_pos_right (List.length_pos_iff.mpr hne)
  cases i with
  | idle | clear | unknown => simp [encode] at hlt
  | setCursor row col =>
    obtain ⟨rfl, -⟩ := List.cons.inj he
    match front with
    | [] | [_] => rfl
    | _ :: _ :: _ => simp [encode] at hlt; omega
  | print declared text =>
    obtain ⟨rfl, hrest⟩ := List.cons.inj he
    cases front with
    | nil => rfl
    | cons declared' front =>
      obtain ⟨rfl, -⟩ := List.cons.inj hrest
      have htext : text.length = Instr.textLength declared := eq_of_beq hw
      exact decodePrint_incomplete (by simpa [encode, ← htext] using hlt)
  | printGlyph index =>
    obtain ⟨rfl, -⟩ := List.cons.inj he
    match front with
    | [] => rfl
    | _ :: _ => simp [encode] at hlt
  | createGlyph index bitmap =>
    obtain ⟨rfl, -⟩ := List.cons.inj he
    cases front with
    | nil => rfl
    | cons index' front => exact decodeCreateGlyph_incomplete (by simpa [encode] using hlt)

/-- Settles O3: the empty front, and the fronts that hold the tag. -/
theorem partialPacketIsIncomplete : Obligations.PartialPacketIsIncomplete := by
  intro i front back hw he hne
  refine ⟨fun h => h ▸ decode_nil, ?_⟩
  rintro tag more rfl
  exact decode_front_incomplete hw he hne

/-- No proper front of a packet decodes. -/
theorem decode_front_error {i : Instr} {front back : List Byte} (hw : i.wf = true) (he : encode i = front ++ back)
    (hne : back ≠ []) : ∃ e, decode front = .error e := by
  cases front with
  | nil => exact ⟨_, decode_nil⟩
  | cons tag front => exact ⟨_, decode_front_incomplete hw he hne⟩

/-- Bytes after a whole packet do not change it. -/
theorem decode_append {bs rest : List Byte} {i : Instr} (h : decode bs = .ok (i, rest)) (more : List Byte) :
    decode (bs ++ more) = .ok (i, rest ++ more) := by
  obtain ⟨hw, rfl⟩ := encodeOfDecodeIsTheBytes bs i rest h
  rw [List.append_assoc]
  exact decodeOfEncodeIsTheInstruction i (rest ++ more) hw

/-- A well-formed packet has at least one byte and at most the 18 of a full Print (R55). -/
theorem Instr.length_bounds {i : Instr} (hw : i.wf = true) : 1 ≤ i.length ∧ i.length ≤ longestPacket := by
  cases i with
  | print declared text => exact (Laws.EncodedLength.print declared text hw).2
  | createGlyph index bitmap => exact (Laws.EncodedLength.createGlyph index bitmap hw).2
  | idle | clear | setCursor | printGlyph | unknown => simp [Instr.length, longestPacket, maxText]

end Sys2Proof

/-! # Steps (spec/40_framer.md R71-R78) -/

namespace Sys2Proof.Machine

/-! ## The surroundings and the reset state -/

/-- Settles O23: running a packet changes the block only. -/
theorem execLeavesSurroundingsAlone : Obligations.ExecLeavesSurroundingsAlone := by
  intro i s t h
  rw [exec_eq] at h
  cases h
  exact ⟨rfl, rfl, rfl, rfl, rfl, rfl⟩

/-- Settles O38: the table's values are those of `State.reset`, and a reset edge keeps the histories. -/
theorem resetStateIsAsTheRuleLists : Obligations.ResetStateIsAsTheRuleLists := by
  refine ⟨rfl, rfl, rfl, rfl, rfl, rfl, rfl, rfl, Vector.toList_replicate, Vector.toList_replicate, rfl, rfl, rfl, rfl,
    fun s hr => ?_⟩
  obtain ⟨-, hconsumed, htrace, -⟩ := State.clock_rst hr
  exact ⟨hconsumed, htrace⟩

/-! ## Which packet a step runs -/

section

variable {s : State} {i : Instr}

theorem step_of_fetch_some (h : s.fetch = some i) : step s = exec i (s.consume i.length) := by rw [step, h]

theorem step_of_fetch_none (h : s.fetch = none) : step s = .next s.clock := by rw [step, h]

theorem step_of_decode {rest : List Byte} (hs : s.blk.st = .awaitTag) (hd : decode s.burst = .ok (i, rest)) :
    step s = exec i (s.consume i.length) :=
  step_of_fetch_some (State.fetch_eq_some.mpr ⟨hs, rest, hd⟩)

theorem State.fetch_eq_none_of_st (hs : s.blk.st ≠ .awaitTag) : s.fetch = none := by rw [fetch, if_neg hs]

theorem State.fetch_eq_none_of_error {e : DecodeError} (he : decode s.burst = .error e) : s.fetch = none := by
  rw [fetch, he, ite_self]

/-- Bytes that the source holds and streaming edges carry are the first of the burst. -/
theorem State.prefix_burst {bs more : List Byte} (hrx : s.rx = bs ++ more) (hle : bs.length ≤ longestPacket)
    (hedge : ∀ k, k < bs.length → (s.edgeAt k).streams = true) : bs <+: s.burst := by
  rw [burst, hrx]
  exact s.burstFrom_of_streams longestPacket 0 bs more hle fun j hj => by simpa using hedge j hj

/-- If the bytes the source holds and streaming edges carry begin with a packet, the step runs it. -/
theorem step_of_decode_prefix {bs rest more : List Byte} (hs : s.blk.st = .awaitTag) (hd : decode bs = .ok (i, rest))
    (hrx : s.rx = bs ++ more) (hle : bs.length ≤ longestPacket)
    (hedge : ∀ k, k < bs.length → (s.edgeAt k).streams = true) : step s = exec i (s.consume i.length) := by
  obtain ⟨tail, hburst⟩ := State.prefix_burst hrx hle hedge
  exact step_of_decode hs (hburst ▸ decode_append hd tail)

/-- The packet fetched is well formed, and streaming edges carry its bytes from the source. -/
theorem State.fetch_bytes (h : s.fetch = some i) :
    i.wf = true ∧ encode i <+: s.rx ∧ ∀ k, k < i.length → (s.edgeAt k).streams = true := by
  obtain ⟨-, rest, hd⟩ := fetch_eq_some.mp h
  obtain ⟨hw, hbytes⟩ := encodeOfDecodeIsTheBytes _ _ _ hd
  have hburst : encode i <+: s.burst := ⟨rest, hbytes⟩
  refine ⟨hw, hburst.trans (s.burstFrom_isPrefix _ _ _), fun k hk => ?_⟩
  have hlt : k < s.burst.length := (encode_length hw ▸ hk).trans_le hburst.length_le
  simpa using s.burstFrom_streams longestPacket 0 s.rx k hlt

end

/-- Settles O44: the step runs the packet fetched. -/
theorem stepRunsTheDecodedInstruction : Obligations.StepRunsTheDecodedInstruction :=
  fun _ _ _ hs hd => step_of_decode hs hd

/-- Settles O45: the packet's bytes decode to it. -/
theorem stepRunsAPacketOfferedWithoutGaps : Obligations.StepRunsAPacketOfferedWithoutGaps := by
  intro s i rest hs hw hrx hedge
  have hlen : (encode i).length = i.length := encode_length hw
  have hd : decode (encode i) = .ok (i, []) := by simpa using decodeOfEncodeIsTheInstruction i [] hw
  rw [step_of_decode_prefix hs hd hrx (hlen ▸ (Instr.length_bounds hw).2)
    fun k hk => (Edge.streams_iff _).mpr (hedge k (hlen ▸ hk)), State.consume, hrx, ← hlen, List.drop_left]

theorem tableBytes_length (nbits w : Nat) : (tableBytes nbits w).length = longestPacket := by
  rw [tableBytes, List.length_map, List.length_range]

theorem decodeTableWord_eq_some {nbits w : Nat} {i : Instr} (h : decodeTableWord nbits w = some i) :
    ∃ rest, decode (tableBytes nbits w) = .ok (i, rest) := by
  rw [decodeTableWord] at h
  split at h
  · rename_i rest hd
    cases h
    exact ⟨rest, hd⟩
  · cases h

/-- The edges that carry a placed stream do stream. -/
theorem State.withStream_streams (s : State) {bs : List Byte} {k : Nat} (h : k < bs.length) :
    ((s.withStream bs).edgeAt k).streams = true := by
  have hk : k < (s.streamingEdges bs.length).length := by rwa [streamingEdges, List.length_replicate]
  rw [edgeAt, withStream_sched, List.getD_append _ _ _ _ hk, streamingEdges, List.getD_replicate _ h]
  rfl

/-- Settles O46: the word's bytes stand first in the source, with as many streaming edges. -/
theorem placedWordIsRunByTheNextStep : Obligations.PlacedWordIsRunByTheNextStep := by
  intro s nbits w i h
  obtain ⟨rest, hd⟩ := decodeTableWord_eq_some h
  exact step_of_decode_prefix rfl hd rfl (tableBytes_length nbits w).le fun k hk => s.withStream_streams hk

/-! ## Steps of one edge -/

/-- The burst ends where the bytes held or the streaming edges end. -/
theorem State.burstFrom_eq_front (s : State) {fuel k : Nat} {front more : List Byte} (hfuel : front.length < fuel)
    (hedge : ∀ j, j < front.length → (s.edgeAt (k + j)).streams = true)
    (hstop : more = [] ∨ (s.edgeAt (k + front.length)).streams = false) :
    s.burstFrom fuel k (front ++ more) = front := by
  induction front generalizing fuel k with
  | nil =>
    obtain ⟨fuel, rfl⟩ := Nat.exists_eq_succ_of_ne_zero (Nat.ne_of_gt hfuel)
    rcases hstop with rfl | hstop
    · rfl
    · cases more with
      | nil => rfl
      | cons x xs => exact if_neg (Bool.eq_false_iff.mp hstop)
  | cons x xs ih =>
    obtain ⟨fuel, rfl⟩ := Nat.exists_eq_succ_of_ne_zero (Nat.ne_zero_of_lt hfuel)
    rw [List.length_cons] at hfuel hedge hstop
    have hnext (j : Nat) : k + 1 + j = k + (j + 1) := by omega
    have hfirst : (s.edgeAt k).streams = true := hedge 0 (by omega)
    rw [List.cons_append, burstFrom, if_pos hfirst, ih (by omega)
      (fun j hj => hnext j ▸ hedge (j + 1) (by omega)) (hnext xs.length ▸ hstop)]

theorem State.burst_eq_front {s : State} {front more : List Byte} (hrx : s.rx = front ++ more)
    (hlt : front.length < longestPacket) (hedge : ∀ k, k < front.length → (s.edgeAt k).streams = true)
    (hstop : more = [] ∨ (s.edgeAt front.length).streams = false) : s.burst = front := by
  rw [burst, hrx]
  exact s.burstFrom_eq_front hlt (by simpa using hedge) (by simpa using hstop)

/-- An edge with a reset, without an offer or with an arrival does not stream. -/
theorem Edge.streams_eq_false {e : Edge}
    (h : e.pins.rst = true ∨ e.pins.offers = false ∨ e.arrival ≠ none) : e.streams = false := by
  rw [Bool.eq_false_iff]
  intro he
  obtain ⟨hr, ho, ha⟩ := (Edge.streams_iff e).mp he
  rcases h with h | h | h
  · rw [hr] at h; cases h
  · rw [ho] at h; cases h
  · exact h ha

/-- A step at which no byte streams is one edge. -/
theorem step_of_no_byte {s : State}
    (hstop : s.rx = [] ∨ (s.edgeAt 0).pins.rst = true ∨ (s.edgeAt 0).pins.offers = false ∨
      (s.edgeAt 0).arrival ≠ none) : step s = .next s.clock := by
  have hburst : s.burst = [] :=
    State.burst_eq_front (front := []) rfl (by decide) nofun (hstop.imp id Edge.streams_eq_false)
  exact step_of_fetch_none (State.fetch_eq_none_of_error (hburst ▸ decode_nil))

/-- Settles O47: where no whole packet is on the port the burst ends before one, and a proper front of a packet does
not decode. -/
theorem otherStepsAreOneEdge : Obligations.OtherStepsAreOneEdge := by
  refine ⟨fun s h => ?_, fun s i front back more hw he hne hrx hedge hstop => ?_⟩
  · rcases h with hs | h | h | h | h | ⟨e, he⟩
    · exact step_of_fetch_none (State.fetch_eq_none_of_st hs)
    · exact step_of_no_byte (.inl h)
    · exact step_of_no_byte (.inr (.inl h))
    · exact step_of_no_byte (.inr (.inr (.inl h)))
    · exact step_of_no_byte (.inr (.inr (.inr h)))
    · exact step_of_fetch_none (State.fetch_eq_none_of_error he)
  · have hlt : front.length < longestPacket :=
      (encode_length hw ▸ length_front_lt he hne).trans_le (Instr.length_bounds hw).2
    have hburst : s.burst = front := State.burst_eq_front hrx hlt
      (fun k hk => (Edge.streams_iff _).mpr (hedge k hk)) (hstop.imp id Edge.streams_eq_false)
    obtain ⟨e, herror⟩ := decode_front_error hw he hne
    exact step_of_fetch_none (State.fetch_eq_none_of_error (hburst ▸ herror))

/-! ## A packet's bytes one by one (R71, R78) -/

section

variable {b : Block}

/-- A packet's last step taken over by the circuit: the command it put out, if any, is issued (R78). -/
def Block.conclude (b : Block) : Option Cmd → Block
  | none => b
  | some c => b.issue c

theorem Block.acceptByte_eq_conclude (b : Block) (x : Byte) :
    b.acceptByte x = (byteStep b x).1.conclude (byteStep b x).2 := by
  cases hc : (byteStep b x).2 with
  | none => exact acceptByte_none hc
  | some c => exact acceptByte_some hc

theorem byteRun_receiving (h : b.st ≠ .issue) (bs : List Byte) : (byteRun b bs).st ≠ .issue := by
  induction bs generalizing b with
  | nil => exact h
  | cons x xs ih => exact ih (byteStep_fitsCircuit h x).receiving

/-- The byte beats of a stream that puts out nothing are its steps at byte level. -/
theorem foldl_acceptByte_of_quiet {bs : List Byte} (hquiet : byteTrace b bs = []) :
    bs.foldl Block.acceptByte b = byteRun b bs := by
  induction bs generalizing b with
  | nil => rfl
  | cons x xs ih =>
    obtain ⟨hx, hxs⟩ := List.append_eq_nil_iff.mp hquiet
    have hnone : (byteStep b x).2 = none := Option.toList_eq_nil_iff.mp hx
    rw [List.foldl_cons, Block.acceptByte_none hnone, ih hxs, byteRun]

/-- The byte beats of a stream that delivers a command end with the command issued. -/
theorem Block.Delivers.foldl_acceptByte {bs : List Byte} {c : Option Cmd} (hd : b.Delivers bs c) (hne : bs ≠ []) :
    bs.foldl acceptByte b = (byteRun b bs).conclude c := by
  obtain ⟨front, x, rfl⟩ : ∃ front x, bs = front ++ [x] :=
    ⟨bs.dropLast, bs.getLast hne, (List.dropLast_append_getLast hne).symm⟩
  have hquiet : byteTrace b front = [] := hd.quiet_front rfl (List.cons_ne_nil x [])
  have hlast : (byteStep (Machine.byteRun b front) x).2 = c := by
    have htrace := hd.trace
    rw [byteTrace_append, hquiet, List.nil_append, byteTrace, byteTrace, List.append_nil] at htrace
    simpa using congrArg List.head? htrace
  rw [List.foldl_append, foldl_acceptByte_of_quiet hquiet, List.foldl_cons, List.foldl_nil, acceptByte_eq_conclude, hlast,
    byteRun_append, Machine.byteRun, Machine.byteRun]

/-- A packet's effect is its run at byte level, with its command issued. -/
theorem packetEffect_eq_conclude {i : Instr} (h : b.st = .awaitTag) (hw : i.wf = true) :
    packetEffect b i = (byteRun b (encode i)).conclude (packetCommand i) := by
  cases i with
  | idle => rw [encode, byteRun_awaitTag h]; rfl
  | clear => rw [encode, byteRun_awaitTag h]; rfl
  | setCursor row col => rw [encode, byteRun_setCursor h]; rfl
  | print declared text => rw [encode, byteRun_print h (eq_of_beq hw)]; rfl
  | printGlyph index => rw [encode, byteRun_printGlyph h]; rfl
  | createGlyph index bitmap => rw [encode, byteRun_createGlyph h]; rfl
  | unknown tag => rw [encode, byteRun_awaitTag h, tagStep_unknown (of_decide_eq_true hw)]; rfl

theorem foldl_acceptByte_encode {i : Instr} (h : b.st = .awaitTag) (hw : i.wf = true) :
    (encode i).foldl Block.acceptByte b = packetEffect b i := by
  rw [packetEffect_eq_conclude h hw, (delivers_encode h hw).foldl_acceptByte (encode_ne_nil i)]

end

/-- Settles O49: the byte beats of the packet end in the packet's effect. -/
theorem execIsItsBytesOneByOne : Obligations.ExecIsItsBytesOneByOne := by
  intro i s hw hs
  rw [exec_eq, foldl_acceptByte_encode hs hw]
  rfl

/-! ## A step as a run of edges (R78) -/

/-- The circuit takes every one of the bytes at consecutive offers: no command is pending before the last. -/
def Block.Takes (b : Block) : List Byte → Prop
  | [] => True
  | x :: xs => b.st ≠ .issue ∧ (b.acceptByte x).Takes xs

theorem Block.Takes.take {b : Block} {bs : List Byte} (h : b.Takes bs) (n : Nat) : b.Takes (bs.take n) := by
  induction bs generalizing b n with
  | nil => rw [List.take_nil]; exact h
  | cons x xs ih =>
    obtain ⟨hs, hxs⟩ := h
    cases n with
    | zero => exact trivial
    | succ n => exact ⟨hs, ih hxs n⟩

theorem Block.takes_of_quiet {b : Block} {bs : List Byte} (hs : b.st ≠ .issue) (hquiet : byteTrace b bs.dropLast = []) :
    b.Takes bs := by
  induction bs generalizing b with
  | nil => exact trivial
  | cons x xs ih =>
    refine ⟨hs, ?_⟩
    cases xs with
    | nil => exact trivial
    | cons y ys =>
      obtain ⟨hx, hys⟩ := List.append_eq_nil_iff.mp hquiet
      rw [acceptByte_none (Option.toList_eq_nil_iff.mp hx)]
      exact ih (byteStep_fitsCircuit hs x).receiving hys

theorem Block.takes_encode {b : Block} {i : Instr} (h : b.st = .awaitTag) (hw : i.wf = true) : b.Takes (encode i) :=
  takes_of_quiet (by rw [h]; nofun) (delivers_encode h hw).quiet

theorem State.consume_consume (s : State) (m n : Nat) : (s.consume m).consume n = s.consume (m + n) := by
  rw [consume, consume, consume, Nat.add_assoc, List.drop_drop, List.drop_drop]

/-- At streaming edges the bytes are consumed one by one, and nothing else happens. -/
theorem State.clocks_streams {s : State} {bs more : List Byte} (hrx : s.rx = bs ++ more) (htakes : s.blk.Takes bs)
    (hedge : ∀ k, k < bs.length → (s.edgeAt k).streams = true) :
    s.clocks bs.length = (s.consume bs.length).onBlock fun b => bs.foldl Block.acceptByte b := by
  induction bs generalizing s with
  | nil => rfl
  | cons x xs ih =>
    obtain ⟨hs, hxs⟩ := htakes
    have hclock : s.clock = (s.consume 1).onBlock fun b => b.acceptByte x :=
      State.clock_streams hs hrx (hedge 0 (Nat.succ_pos _))
    have hrest := ih (s := s.clock) (by rw [hclock]; simp [hrx]) (by rw [hclock]; exact hxs)
      fun k hk => by rw [edgeAt_clock]; exact hedge (k + 1) (Nat.succ_lt_succ hk)
    rw [List.length_cons, clocks_succ, hrest, hclock, Nat.add_comm xs.length 1, ← consume_consume]
    rfl

/-- A step that runs a packet is as many edges as the packet has bytes (R75). -/
theorem exec_consume_eq_clocks {s : State} {i : Instr} (h : s.fetch = some i) :
    exec i (s.consume i.length) = .next (s.clocks i.length) := by
  obtain ⟨hs, -⟩ := State.fetch_eq_some.mp h
  obtain ⟨hw, ⟨more, hrx⟩, hedge⟩ := State.fetch_bytes h
  have hlen : (encode i).length = i.length := encode_length hw
  have hclocks := State.clocks_streams hrx.symm (Block.takes_encode hs hw) (hlen ▸ hedge)
  rw [hlen] at hclocks
  rw [execIsItsBytesOneByOne i (s.consume i.length) hw hs, hclocks]
  rfl

/-- Settles O48: a packet takes as many edges as it has bytes, any other step is one edge. -/
theorem stepIsARunOfEdges : Obligations.StepIsARunOfEdges := by
  intro s
  cases h : s.fetch with
  | none => exact ⟨1, le_rfl, by decide, step_of_fetch_none h⟩
  | some i =>
    obtain ⟨hmin, hmax⟩ := Instr.length_bounds (State.fetch_bytes h).1
    exact ⟨i.length, hmin, hmax, (step_of_fetch_some h).trans (exec_consume_eq_clocks h)⟩

/-! ## The invariant -/

theorem State.Inv.clocks {s : State} (hi : s.Inv) (n : Nat) : (s.clocks n).Inv := by
  induction n generalizing s with
  | zero => exact hi
  | succ n ih => exact ih (s := s.clock) (Block.Inv.clockEdge hi s.inputs)

/-- Settles O50: a step is a run of edges, and every edge keeps the invariant. -/
theorem stepKeepsTheInvariant : Obligations.StepKeepsTheInvariant := by
  intro s t hi h
  obtain ⟨n, -, -, hn⟩ := stepIsARunOfEdges s
  rw [hn] at h
  cases h
  exact hi.clocks n

/-- Settles O51: at a reset edge the step is that edge, and it gives the block its reset values. -/
theorem resetMeetsTheInvariant : Obligations.ResetMeetsTheInvariant := by
  refine ⟨Block.reset_inv, fun s hr => ⟨s.clock, step_of_no_byte (.inr (.inl hr)), ?_⟩⟩
  rw [State.Inv, (State.clock_rst hr).1]
  exact Block.reset_inv

/-! ## Streams of packets (R46, R74) -/

/-- Settles O14: by induction on the packets, each of which delivers its command and ends at a packet boundary. -/
theorem packetStreamTracesInOrder : Obligations.PacketStreamTracesInOrder := by
  intro b packets h hw
  induction packets generalizing b with
  | nil => rfl
  | cons i packets ih =>
    obtain ⟨hwi, hws⟩ := List.forall_mem_cons.mp hw
    have hd := delivers_encode h hwi
    rw [List.flatMap_cons, byteTrace_append, hd.trace, ih _ hd.boundary hws, List.filterMap_cons]
    cases packetCommand i <;> rfl

end Sys2Proof.Machine

/-! # The circuit in time, and the agents around the block (spec/70_reset_and_hazards.md) -/

namespace Sys2Proof.Machine

/-! ## A packet's edges, counted (R117) -/

section

variable {s : State}

/-- At edges that offer the bytes one after the other, whatever arrives meanwhile, the block takes them and no command
completes. -/
theorem State.clocks_offered {bs more : List Byte} (hrx : s.rx = bs ++ more) (htakes : s.blk.Takes bs)
    (hedge : ∀ k, k < bs.length → (s.edgeAt k).pins.rst = false ∧ (s.edgeAt k).pins.offers = true) :
    (s.clocks bs.length).blk = bs.foldl Block.acceptByte s.blk ∧
      (s.clocks bs.length).consumed = s.consumed + bs.length ∧ (s.clocks bs.length).trace = s.trace := by
  induction bs generalizing s more with
  | nil => exact ⟨rfl, rfl, rfl⟩
  | cons x xs ih =>
    obtain ⟨hs, hxs⟩ := htakes
    obtain ⟨hr, ho⟩ := hedge 0 (Nat.succ_pos _)
    have hin : s.inputs.rx = some x := by rw [inputs, if_pos ho, hrx]; rfl
    have hblk : s.clock.blk = s.blk.acceptByte x := Block.clockEdge_byte hr hs hin
    have hbeat : s.blk.byteBeat s.inputs = some x := Block.byteBeat_eq_some.mpr ⟨hr, hs, hin⟩
    have hrest : s.clock.rx = xs ++ (more ++ s.arrived) := by
      rw [clock_rx, rxAfterBeat, hbeat, hrx, ← List.append_assoc]
      rfl
    obtain ⟨hblk', hconsumed, htrace⟩ := ih hrest (hblk ▸ hxs)
      fun k hk => by rw [edgeAt_clock]; exact hedge (k + 1) (Nat.succ_lt_succ hk)
    rw [List.length_cons, clocks_succ, hblk', hconsumed, htrace, hblk, clock_consumed, hbeat, clock_trace,
      Block.commandBeat_of_ne_issue hs]
    exact ⟨rfl, Nat.add_right_comm _ _ _, List.append_nil _⟩

/-- The command beat: the pending command joins the trace, and no byte is consumed (R80). -/
theorem State.clock_complete (hs : s.blk.st = .issue) (hr : (s.edgeAt 0).pins.rst = false)
    (hc : (s.edgeAt 0).pins.cmdReady = true) :
    s.clock.blk.st = .awaitTag ∧ s.clock.trace = s.trace ++ s.blk.presented.toList ∧ s.clock.consumed = s.consumed := by
  obtain ⟨hblk, htrace⟩ := (issuePresentsHoldsAndCompletes.2 s hs hr).2 hc
  exact ⟨congrArg Block.st hblk, htrace, (noByteIsTakenWhileIssuing.2.2 s hs).1 hr⟩

section Offered

variable {i : Instr} {rest : List Byte} (hs : s.blk.st = .awaitTag) (hw : i.wf = true) (hrx : s.rx = encode i ++ rest)
  (hoffer : ∀ k, k < i.length → (s.edgeAt k).pins.rst = false ∧ (s.edgeAt k).pins.offers = true)
include hs hw hrx hoffer

/-- As many edges as the packet has bytes, each offering one, have the packet's effect (R75). -/
theorem State.clocks_offered_packet :
    (s.clocks i.length).blk = packetEffect s.blk i ∧ (s.clocks i.length).consumed = s.consumed + i.length ∧
      (s.clocks i.length).trace = s.trace := by
  have hlen : (encode i).length = i.length := encode_length hw
  have h := clocks_offered hrx (Block.takes_encode hs hw) (hlen ▸ hoffer)
  rwa [hlen, foldl_acceptByte_encode hs hw] at h

/-- Up to the packet's last byte no command completes. -/
theorem State.clocks_offered_front_trace {m : Nat} (hm : m ≤ i.length) : (s.clocks m).trace = s.trace := by
  have hfront : ((encode i).take m).length = m := by rw [List.length_take, encode_length hw, Nat.min_eq_left hm]
  have hsplit : s.rx = (encode i).take m ++ ((encode i).drop m ++ rest) := by
    rw [← List.append_assoc, List.take_append_drop, hrx]
  obtain ⟨-, -, htrace⟩ := clocks_offered hsplit ((Block.takes_encode hs hw).take m)
    fun k hk => hoffer k ((hfront ▸ hk).trans_le hm)
  rwa [hfront] at htrace

end Offered

end

theorem Block.st_of_presented {b : Block} {c : Cmd} (h : b.presented = some c) : b.st = .issue := by
  by_contra hs
  rw [presented_of_ne_issue hs] at h
  cases h

/-- Settles O54: the packet's bytes are taken at consecutive edges, its command is held until the driver is ready, and
then it completes. -/
theorem packetOccupiesLengthPlusLatency : Obligations.PacketOccupiesLengthPlusLatency := by
  intro s i c rest d hw hc hd hs hrx hoffer hissue
  obtain ⟨hblk, hconsumed, htrace⟩ := State.clocks_offered_packet hs hw hrx hoffer
  have hport : (s.clocks i.length).blk.presented = some c := hblk ▸ (presented_packetEffect hw).trans hc
  have hpending := Block.st_of_presented hport
  have hheld (n : Nat) (hn : n < d) : (s.clocks (i.length + n)).blk = (s.clocks i.length).blk ∧
      (s.clocks (i.length + n)).trace = s.trace ∧ (s.clocks (i.length + n)).consumed = s.consumed + i.length := by
    obtain ⟨hblk', -, htrace', hconsumed'⟩ := driverStallIsAWait n (s.clocks i.length) hpending fun k hk => by
      obtain ⟨hr, hready⟩ := hissue (i.length + k) (by omega) (by omega)
      rw [State.edgeAt_clocks]
      exact ⟨hr, hready.trans (decide_eq_false (by omega))⟩
    rw [State.clocks_add]
    exact ⟨hblk', htrace'.trans htrace, hconsumed'.trans hconsumed⟩
  obtain ⟨e, rfl⟩ := Nat.exists_eq_add_of_le' hd
  obtain ⟨hblk', htrace', hconsumed'⟩ := hheld e (Nat.lt_succ_self e)
  obtain ⟨hr, hready⟩ := hissue (i.length + e) (by omega) (by omega)
  have hbeat := State.clock_complete (s := s.clocks (i.length + e)) (hblk' ▸ hpending)
  rw [State.edgeAt_clocks, hblk', hport, htrace', hconsumed', ← State.clocks_succ_last] at hbeat
  obtain ⟨hst, hdone, hcount⟩ := hbeat hr (hready.trans (decide_eq_true rfl))
  refine ⟨hst, hdone, hcount, fun m hm => ?_⟩
  rcases Nat.le_total m i.length with hfront | hbehind
  · exact State.clocks_offered_front_trace hs hw hrx hoffer hfront
  · obtain ⟨n, rfl⟩ := Nat.exists_eq_add_of_le hbehind
    exact (hheld n (by omega)).2.1

/-! ## Progress with a bound (R84, R119) -/

section

variable {s : State}

/-- For `n` edges nothing is consumed or completed: the pending command finds no ready driver, or the byte held is not
offered. -/
structure State.StandsStill (s : State) (n : Nat) : Prop where
  blk_eq : (s.clocks n).blk = s.blk
  rx_eq : (s.clocks n).rx = s.rx
  driver : s.blk.st = .issue → ∀ k < n, (s.edgeAt k).pins.cmdReady = false
  byte : s.blk.st ≠ .issue → ∀ k < n, s.rx = [] ∨ (s.edgeAt k).pins.offers = false

/-- One more edge at which a block that has stood still waits. -/
theorem State.StandsStill.succ {n : Nat} (h : s.StandsStill n) (hwaits : (s.clocks n).Waits)
    (hblk : (s.clocks n).clock.blk = (s.clocks n).blk) (hrx : (s.clocks n).clock.rx = (s.clocks n).rx) :
    s.StandsStill (n + 1) := by
  obtain ⟨hdriver, hbyte⟩ := hwaits
  rw [h.blk_eq, edgeAt_clocks, Nat.add_zero] at hdriver hbyte
  rw [h.rx_eq] at hbyte
  rw [h.blk_eq] at hblk
  rw [h.rx_eq] at hrx
  constructor
  · rw [clocks_succ_last, hblk]
  · rw [clocks_succ_last, hrx]
  · intro hs k hk
    rcases Nat.lt_succ_iff_lt_or_eq.mp hk with hk | rfl
    · exact h.driver hs k hk
    · exact hdriver hs
  · intro hs k hk
    rcases Nat.lt_succ_iff_lt_or_eq.mp hk with hk | rfl
    · exact h.byte hs k hk
    · exact hbyte hs

/-- In `n` edges the backlog gets lower, or nothing happens. -/
theorem State.undisturbed.clocks_backlog (hu : s.undisturbed) (n : Nat) :
    (s.clocks n).backlog < s.backlog ∨ s.StandsStill n := by
  induction n with
  | zero => exact .inr ⟨rfl, rfl, nofun, nofun⟩
  | succ n ih =>
    have hedge := (undisturbed_clocks hu n).clock_backlog
    rcases ih with hlower | hstill
    · left
      rw [clocks_succ_last]
      rcases hedge with hlt | ⟨-, hblk, hrx⟩
      · exact hlt.trans hlower
      · rwa [backlog_congr hblk hrx]
    · rcases hedge with hlt | ⟨hwaits, hblk, hrx⟩
      · left
        rwa [backlog_congr hstill.blk_eq hstill.rx_eq, ← clocks_succ_last] at hlt
      · exact .inr (hstill.succ hwaits hblk hrx)

/-- Every `d + 1` edges in a row contain an offer and a ready driver. -/
structure State.FairWithin (s : State) (d : Nat) : Prop where
  offers : ∀ k, ∃ j, j ≤ d ∧ (s.edgeAt (k + j)).pins.offers = true
  driver : ∀ k, ∃ j, j ≤ d ∧ (s.edgeAt (k + j)).pins.cmdReady = true

theorem State.FairWithin.clocks {d : Nat} (hf : s.FairWithin d) (n : Nat) : (s.clocks n).FairWithin d := by
  constructor
  · simpa only [edgeAt_clocks, Nat.add_assoc] using fun k => hf.offers (n + k)
  · simpa only [edgeAt_clocks, Nat.add_assoc] using fun k => hf.driver (n + k)

/-- A backlog gets lower within `d + 1` edges. -/
theorem State.FairWithin.backlog_lower {d : Nat} (hf : s.FairWithin d) (hu : s.undisturbed) :
    (s.clocks (d + 1)).backlog ≤ s.backlog - 1 := by
  rcases hu.clocks_backlog (d + 1) with hlt | hstill
  · omega
  · have hidle : s.blk.st ≠ .issue := by
      intro hs
      obtain ⟨j, hj, hready⟩ := hf.driver 0
      rw [Nat.zero_add, hstill.driver hs j (Nat.lt_succ_of_le hj)] at hready
      cases hready
    have hempty : s.rx = [] := by
      obtain ⟨j, hj, hoffers⟩ := hf.offers 0
      refine (hstill.byte hidle j (Nat.lt_succ_of_le hj)).resolve_right fun hno => ?_
      rw [Nat.zero_add, hno] at hoffers
      cases hoffers
    rw [backlog_congr hstill.blk_eq hstill.rx_eq, backlog_eq_zero.mpr ⟨hempty, hidle⟩]

theorem State.FairWithin.backlog_le {d : Nat} (hf : s.FairWithin d) (hu : s.undisturbed) (n : Nat) :
    (s.clocks ((d + 1) * n)).backlog ≤ s.backlog - n := by
  induction n with
  | zero => exact le_rfl
  | succ n ih =>
    have hlower := (hf.clocks ((d + 1) * n)).backlog_lower (undisturbed_clocks hu _)
    rw [← clocks_add] at hlower
    rw [Nat.mul_succ]
    omega

end

/-- Settles O53: the backlog is two beats for each byte of the stream, and one of them is worked off in every `d + 1`
edges. -/
theorem fairEnvironmentCompletesWithinABound : Obligations.FairEnvironmentCompletesWithinABound := by
  intro bs sched levels d hu hoffers hdriver
  have hf : (State.fed bs sched levels).FairWithin d := ⟨hoffers, hdriver⟩
  have hbacklog : (State.fed bs sched levels).backlog = 2 * bs.length := rfl
  have hle := hf.backlog_le hu (2 * bs.length)
  rw [hbacklog, Nat.sub_self] at hle
  have hzero := Nat.le_zero.mp hle
  have hagrees := (State.Agrees.fed bs sched levels).clocks hu ((d + 1) * (2 * bs.length))
  refine ⟨(d + 1) * (2 * bs.length), le_of_eq (by ring), hagrees.trace_of_backlog_zero hzero,
    le_antisymm hagrees.consumed_le ?_⟩
  have hempty := hagrees.rx_eq
  rw [(State.backlog_eq_zero.mp hzero).1] at hempty
  exact List.drop_eq_nil_iff.mp hempty.symm

/-! ## The byte source (R110, R115) -/

section

variable {s : State} {x : Byte}

theorem State.arrived_of_room (ha : (s.edgeAt 0).arrival = some x) (hroom : s.sourceFull = false) :
    s.arrived = [x] := by
  simp [arrived, ha, arrivalKept, hroom]

/-- A byte that arrives is held or lost. -/
theorem State.arrived_cases (ha : (s.edgeAt 0).arrival = some x) : s.arrived = [x] ∨ s.arrived = [] := by
  rw [arrived, ha]
  dsimp only
  split
  · exact .inl rfl
  · exact .inr rfl

/-- Without a byte beat every byte held stays. -/
theorem State.rxAfterBeat_of_no_beat (h : s.blk.byteBeat s.inputs = none) : s.rxAfterBeat = s.rx := by
  rw [rxAfterBeat, h]

end

/-- Settles O55: with room the byte is held, at a full source it is held or lost and counted; reset and `ISSUE` have no
byte beat; and the block's inputs do not contain the arrival. -/
theorem arrivalIsHeldOrLost : Obligations.ArrivalIsHeldOrLost := by
  refine ⟨fun s x ha => ⟨fun hroom => ?_, fun hfull => ?_⟩, fun s h => ⟨s.arrived, ?_⟩,
    fun s pins x y later => ⟨rfl, rfl⟩⟩
  · have hnotFull : s.sourceFull = false := decide_eq_false (Nat.not_lt.mpr hroom)
    rw [State.clock_rx, State.arrived_of_room ha hnotFull, State.clock_overruns, hnotFull, Bool.and_false]
    exact ⟨rfl, rfl⟩
  · have hisFull : s.sourceFull = true := decide_eq_true hfull
    rw [State.clock_rx, State.clock_overruns, hisFull, ha]
    refine ⟨?_, rfl⟩
    rcases State.arrived_cases ha with hkept | hlost
    · rw [hkept]; exact .inl rfl
    · rw [hlost, List.append_nil]; exact .inr rfl
  · have hbeat : s.blk.byteBeat s.inputs = none := h.elim (Block.byteBeat_of_rst (i := s.inputs)) Block.byteBeat_of_issue
    rw [State.clock_rx, State.rxAfterBeat_of_no_beat hbeat]

theorem preResetKept_sublist (k : Nat) (early : List Byte) : (preResetKept k early).Sublist early := by
  induction early generalizing k with
  | nil => exact .slnil
  | cons x xs ih =>
    rw [preResetKept]
    split
    · exact (ih (k + 1)).cons_cons x
    · exact (ih (k + 1)).cons x

/-- Settles O56: the early bytes kept are some of them in order, and boot sets nothing but the source. -/
theorem earlyBytesAreOfferedOrLost : Obligations.EarlyBytesAreOfferedOrLost :=
  fun early => ⟨preResetKept_sublist 0 early, rfl⟩

end Sys2Proof.Machine

/-! # Hex bitmaps (spec/30_encoding.md R67) -/

namespace Sys2Proof.Machine

/-! ## Tokens -/

theorem isSeparator_iff (c : Char) : isSeparator c = true ↔ c.toNat = 32 ∨ (9 ≤ c.toNat ∧ c.toNat ≤ 13) := by
  simp [isSeparator]

theorem splitTokens_separator {c : Char} (h : isSeparator c = true) (text : List Char) :
    splitTokens [] (c :: text) = splitTokens [] text := by
  rw [splitTokens, if_pos h]
  rfl

theorem splitTokens_token {tok : List Char} (hne : tok ≠ []) (h : ∀ c ∈ tok, isSeparator c = false) :
    splitTokens [] tok = [tok] := by
  have hread := splitTokens_append (cur := []) [] h
  rw [List.append_nil, List.nil_append] at hread
  rw [hread, splitTokens, if_neg (by simpa using hne)]

theorem splitTokens_token_separator {tok : List Char} (hne : tok ≠ []) (h : ∀ c ∈ tok, isSeparator c = false)
    {c : Char} (hc : isSeparator c = true) (text : List Char) :
    splitTokens [] (tok ++ c :: text) = tok :: splitTokens [] text := by
  rw [splitTokens_append (cur := []) (c :: text) h, List.nil_append, splitTokens, if_pos hc,
    if_neg (by simpa using hne)]

/-! ## Digits -/

/-- The digits in the order of their values, with capital letters. -/
def upperDigits : List Char := "0123456789ABCDEF".toList

/-- The digits in the order of their values, with small letters. -/
def lowerDigits : List Char := "0123456789abcdef".toList

/-- A run of `n` digits with the codes from `base` on stands in a list from place `first` on: a character with one of
the codes is at its place. -/
theorem getElem?_of_code {digits : List Char} {base first n d : Nat} {c : Char}
    (hrun : ∀ k < n, digits[first + k]? = some (Char.ofNat (base + k))) (hlow : base ≤ c.toNat)
    (hhigh : c.toNat < base + n) (hd : d = first + (c.toNat - base)) : digits[d]? = some c := by
  rw [hd, hrun _ (by omega), Nat.add_sub_cancel' hlow, Char.ofNat_toNat]

theorem hexDigit_of_upperDigits {d : Nat} {c : Char} (h : upperDigits[d]? = some c) : hexDigit c = some d := by
  have hall : ∀ d < upperDigits.length, upperDigits[d]?.bind hexDigit = some d := by decide
  simpa [h] using hall d (List.getElem?_eq_some_iff.mp h).1

theorem hexDigit_of_lowerDigits {d : Nat} {c : Char} (h : lowerDigits[d]? = some c) : hexDigit c = some d := by
  have hall : ∀ d < lowerDigits.length, lowerDigits[d]?.bind hexDigit = some d := by decide
  simpa [h] using hall d (List.getElem?_eq_some_iff.mp h).1

/-- A digit's value is its place in one of the two lists. -/
theorem hexDigit_eq_some {c : Char} {d : Nat} :
    hexDigit c = some d ↔ upperDigits[d]? = some c ∨ lowerDigits[d]? = some c := by
  refine ⟨fun h => ?_, fun h => h.elim hexDigit_of_upperDigits hexDigit_of_lowerDigits⟩
  rw [hexDigit] at h
  split at h
  · cases h
    exact .inl (getElem?_of_code (base := 48) (first := 0) (n := 10) (by decide) (by omega) (by omega) (by omega))
  · split at h
    · cases h
      exact .inl (getElem?_of_code (base := 65) (first := 10) (n := 6) (by decide) (by omega) (by omega) (by omega))
    · split at h
      · cases h
        exact .inr (getElem?_of_code (base := 97) (first := 10) (n := 6) (by decide) (by omega) (by omega) (by omega))
      · cases h

/-! ## The byte of a token -/

theorem hexByte_one {c : Char} {d : Nat} (h : hexDigit c = some d) : hexByte [c] = some (BitVec.ofNat 8 d) := by
  simp [hexByte, h]

theorem hexByte_two {c c' : Char} {d e : Nat} (h : hexDigit c = some d) (h' : hexDigit c' = some e) :
    hexByte [c, c'] = some (BitVec.ofNat 8 (16 * d + e)) := by
  simp [hexByte, h, h']

theorem hexByte_no_digit {tok : List Char} (h : ∀ c ∈ tok, hexDigit c = none) : hexByte tok = some 0 := by
  have hall : (tok.all fun c => (hexDigit c).isNone) = true := by simpa using h
  rw [hexByte, if_pos hall]

/-- A token with a digit that is longer than two characters, or holds another character too, is left open. -/
theorem hexByte_edge {tok : List Char} (hdigit : ∃ c ∈ tok, hexDigit c ≠ none)
    (hedge : 2 < tok.length ∨ ∃ c ∈ tok, hexDigit c = none) : hexByte tok = Config.hexTokenEdge tok := by
  have hall : ¬(tok.all fun c => (hexDigit c).isNone) = true := by simpa using hdigit
  rw [hexByte, if_neg hall]
  split
  · rename_i d hmap
    obtain ⟨c, rfl, hc⟩ := List.map_eq_singleton_iff.mp hmap
    simp [hc] at hedge
  · rename_i d e hmap
    obtain ⟨c, tail, rfl, hc, htail⟩ := List.map_eq_cons_iff.mp hmap
    obtain ⟨c', rfl, hc'⟩ := List.map_eq_singleton_iff.mp htail
    simp [hc, hc'] at hedge
  · rfl

/-! ## The bytes of the tokens -/

/-- The byte of a place in the token list: 0 where there is no token. -/
def paddedByte : Option (List Char) → Option Byte
  | none => some 0
  | some tok => hexByte tok

theorem bytesOfTokens_nil_succ (n : Nat) : bytesOfTokens (n + 1) [] = (bytesOfTokens n []).map (0#8 :: ·) := rfl

/-- There are bytes exactly if each of the first `n` tokens has one. -/
theorem exists_bytesOfTokens (n : Nat) (toks : List (List Char)) :
    (∃ m, bytesOfTokens n toks = some m) ↔ ∀ tok ∈ toks.take n, ∃ x, hexByte tok = some x := by
  induction n generalizing toks with
  | zero => exact iff_of_true ⟨[], rfl⟩ nofun
  | succ n ih =>
    cases toks with
    | nil =>
      obtain ⟨m, hm⟩ := (ih []).mpr (by rw [List.take_nil]; nofun)
      exact iff_of_true ⟨_, by rw [bytesOfTokens_nil_succ, hm]; rfl⟩ nofun
    | cons tok toks =>
      rw [List.take_succ_cons, List.forall_mem_cons, ← ih toks]
      constructor
      · rintro ⟨m, hm⟩
        obtain ⟨x, xs, hx, hxs, -⟩ := bytesOfTokens_cons_eq_some.mp hm
        exact ⟨⟨x, hx⟩, xs, hxs⟩
      · rintro ⟨⟨x, hx⟩, xs, hxs⟩
        exact ⟨x :: xs, bytesOfTokens_cons_eq_some.mpr ⟨x, xs, hx, hxs, rfl⟩⟩

/-- The bytes begin with that of the first place, and go on with those of the other places. -/
theorem bytesOfTokens_succ {n : Nat} {toks : List (List Char)} {m : List Byte}
    (h : bytesOfTokens (n + 1) toks = some m) :
    ∃ x xs, paddedByte toks.head? = some x ∧ bytesOfTokens n toks.tail = some xs ∧ m = x :: xs := by
  cases toks with
  | nil =>
    obtain ⟨xs, hxs, rfl⟩ := Option.map_eq_some_iff.mp ((bytesOfTokens_nil_succ n).symm.trans h)
    exact ⟨0, xs, rfl, hxs, rfl⟩
  | cons tok toks => exact bytesOfTokens_cons_eq_some.mp h

/-- There are `n` bytes, each that of its place. -/
theorem bytesOfTokens_places {n : Nat} {toks : List (List Char)} {m : List Byte} (h : bytesOfTokens n toks = some m) :
    m.length = n ∧ ∀ k < n, m[k]? = paddedByte toks[k]? := by
  induction n generalizing toks m with
  | zero => cases h; exact ⟨rfl, nofun⟩
  | succ n ih =>
    obtain ⟨x, xs, hx, hxs, rfl⟩ := bytesOfTokens_succ h
    obtain ⟨hlen, hplaces⟩ := ih hxs
    refine ⟨congrArg Nat.succ hlen, fun k hk => ?_⟩
    cases k with
    | zero => rw [List.getElem?_cons_zero, ← List.head?_eq_getElem?, hx]
    | succ k => rw [List.getElem?_cons_succ, hplaces k (Nat.lt_of_succ_lt_succ hk), List.getElem?_tail]

/-- Settles O59: the split by its rule for characters that do not separate, the digits by their places, the kinds of
tokens one by one, and the bitmap by its places. -/
theorem hexBitmapPadsAndIgnores : Obligations.HexBitmapPadsAndIgnores := by
  refine ⟨isSeparator_iff, rfl, fun c text h => splitTokens_separator h text,
    fun tok hne h => ⟨splitTokens_token hne h, fun c text hc => splitTokens_token_separator hne h hc text⟩,
    fun _ _ => hexDigit_eq_some, fun _ _ => hexByte_one, fun _ _ _ _ => hexByte_two, fun _ => hexByte_no_digit,
    fun _ => hexByte_edge, fun text => exists_bytesOfTokens 8 (splitTokens [] text), fun text m hm => ?_⟩
  obtain ⟨hlen, hplaces⟩ := bytesOfTokens_places hm
  refine ⟨hlen, fun k hk x hx => ?_⟩
  have hplace : paddedByte (splitTokens [] text)[k]? = some x := (hplaces k hk).symm.trans hx
  refine ⟨fun tok htok => ?_, fun hmissing => ?_⟩
  · rwa [htok] at hplace
  · rw [List.getElem?_eq_none hmissing] at hplace
    exact (Option.some.inj hplace).symm

end Sys2Proof.Machine
